-- ==== Sys2Proof/Word.lean ====
section
/-! DEFINITION. The word type of the one-bit ports.

The block has no fixed word: the pattern it decodes has a length chosen per operation (30_encoding.md R50), so a
pattern is a `Nat` (an unsigned integer, R41) and the signed quantities are `Int` (00_scope.md R11). What has one
width in every instance is a bit vector: `err`, `sign_out` (1 bit) and `cls` (3 bits), 10_state.md R29. -/

namespace Sys2Proof

/-- A one-bit port: `err` and `sign_out` of 10_state.md R29, and the sign `s` of 30_encoding.md R51. -/
abbrev Bit := BitVec 1

end Sys2Proof
end

