-- ==== Sys2Proof/Syntax.lean ====
section
/-! DEFINITION. Formats, classes, results, the caller's moves, and the instructions (one constructor per row of
opcode_table.json). -/

namespace Sys2Proof

/-- FormatParameters, the pair `(exp_width, sig_width)` of 00_scope.md R7 and R14. -/
structure Format where
  /-- exponent field width `ew` -/
  ew : Nat
  /-- significand field width `sw` -/
  sw : Nat
  deriving DecidableEq, Repr

/-- The classes of 30_encoding.md R56 and 10_state.md R32. -/
inductive WordClass where
  | zero
  | subnormal
  | normal
  | infinity
  | nan
  deriving DecidableEq, Repr

/-- The abstract result of one operation, 10_state.md R30: the error, a finite value kept as sign, mantissa and
scale (so that negative zero differs from positive zero, R84), a signed infinity, or a signed NaN with no payload. -/
inductive Result where
  | invalidParameter
  | finite (s : Bit) (m : Nat) (k : Int)
  | inf (s : Bit)
  | nan (s : Bit)
  deriving DecidableEq, Repr

/-- What the caller does to the input ports before it samples the outputs. -/
inductive CallerAction where
  /-- `DECODE bits, ew, sw` (30_encoding.md R61, R62): drive all three inputs and hold them until the outputs are sampled. -/
  | decode (bits ew sw : Nat)
  /-- Leave an input undriven, or change one, while the outputs are sampled (70_reset_and_hazards.md R141, R143). -/
  | disturb
  deriving DecidableEq, Repr

/-- The class forms of DECODE, one per row of opcode_table.json. `fmt` is the pair of widths of the operation; the
other operands are the fields of the word that the row's encoding leaves free: the sign `s`, the exponent `e`, the
significand `f` (30_encoding.md R51, R56). -/
inductive Instr where
  /-- `s 1…1 0…0`, 40_decode.md R78. -/
  | decodeInfinity (fmt : Format) (s : Bit)
  /-- `s 1…1 f` with `f ≠ 0`, 40_decode.md R79. -/
  | decodeNan (fmt : Format) (s : Bit) (f : Nat)
  /-- `s 0…0 0…0`, 40_decode.md R81. -/
  | decodeZero (fmt : Format) (s : Bit)
  /-- `s 0…0 f` with `f ≠ 0`, 40_decode.md R80. -/
  | decodeSubnormal (fmt : Format) (s : Bit) (f : Nat)
  /-- `s e f` with `0 < e < 2^ew - 1`, 40_decode.md R82. -/
  | decodeNormal (fmt : Format) (s : Bit) (e f : Nat)
  deriving DecidableEq, Repr

end Sys2Proof
end

