-- ==== Sys2Proof/Config.lean ====
section
/-! DEFINITION. What an implementation fixes (00_scope.md R8, R9), and the free values the spec leaves open. -/

namespace Sys2Proof

/-- The implementation parameters of 00_scope.md R8: the three maxima of a block with finite ports, or the abstract
model with `EW_MAX = SW_MAX = IN_W = infinity`, "exactly the source's arbitrary-precision decoder". Log 1, Log 16. -/
inductive Params where
  | bounded (ewMax swMax inW : Nat)
  | unbounded
  deriving DecidableEq, Repr

/-- One instance of the block: its parameters, and, for a fixed-format instance (00_scope.md R9), the constants its
`ew_in` and `sw_in` are tied to. Log 17. -/
structure BlockConfig where
  params : Params
  tied : Option Format
  deriving DecidableEq, Repr

/-- The output ports of 10_state.md R29, as names: a free value is drawn for a port. -/
inductive OutPort where
  | err | cls | signOut | expFieldOut | sigFieldOut | expUnbOut | mantOut | scaleOut
  deriving DecidableEq, Repr

/-- `ANY` (00_scope.md R12) on an unsigned port: the value of draw `n`, which nothing constrains. Log 4. -/
opaque Config.freeNat : OutPort → Nat → Nat

/-- `ANY` (00_scope.md R12) on a signed port: the value of draw `n`, which nothing constrains. Log 4. -/
opaque Config.freeInt : OutPort → Nat → Int

/-- The OPEN case of `render64` (41_render.md R111): "a total function of `(s, m, k)` alone". Log 11. -/
opaque Config.renderOpen : Bit → Nat → Int → BitVec 64

/-- The OPEN payload and quiet bit of the rendered NaN of sign `s` (41_render.md R111). Log 11. -/
opaque Config.nanPayload : Bit → BitVec 52

/-- The instance of the programs of 95_test_vectors.md section 3: `EW_MAX = 11`, `SW_MAX = 52`, `IN_W = 64`.
DESIGN CHOICE, Log 1: the spec leaves the three OPEN. -/
def BlockConfig.ofVectors : BlockConfig := { params := .bounded 11 52 64, tied := none }

end Sys2Proof
end

