-- ==== Sys2Proof/Machine/Widths.lean ====
section
/-! DEFINITION. The port widths derived from the parameters, and when widths are legal (00_scope.md R7, R8).
`none` is the infinite width of the unbounded block. -/

namespace Sys2Proof

/-- `bitlen(n)`: the number of bits of the unsigned binary form of `n` (00_scope.md R8). -/
def bitlen (n : Nat) : Nat := if n = 0 then 0 else Nat.log2 n + 1

/-- `EW_MAX`. -/
def Params.ewMax : Params → Option Nat
  | .bounded e _ _ => some e
  | .unbounded => none

/-- `SW_MAX`. -/
def Params.swMax : Params → Option Nat
  | .bounded _ s _ => some s
  | .unbounded => none

/-- `IN_W`. -/
def Params.inW : Params → Option Nat
  | .bounded _ _ w => some w
  | .unbounded => none

/-- `N_MAX = 1 + EW_MAX + SW_MAX`, the widest word consulted. -/
def Params.nMax : Params → Option Nat
  | .bounded e s _ => some (1 + e + s)
  | .unbounded => none

/-- `EWI_W = bitlen(EW_MAX)`. -/
def Params.ewiW (p : Params) : Option Nat := p.ewMax.map bitlen

/-- `SWI_W = bitlen(SW_MAX)`. -/
def Params.swiW (p : Params) : Option Nat := p.swMax.map bitlen

/-- `EXPU_W = EW_MAX + 1`. -/
def Params.expuW (p : Params) : Option Nat := p.ewMax.map (· + 1)

/-- `MANT_W = SW_MAX + 1`. -/
def Params.mantW (p : Params) : Option Nat := p.swMax.map (· + 1)

/-- `SC_W = max(EW_MAX, bitlen(SW_MAX)) + 2`. -/
def Params.scW : Params → Option Nat
  | .bounded e s _ => some (max e (bitlen s) + 2)
  | .unbounded => none

/-- `n` is at most the maximum `m` (every `n` is, where the maximum is infinite). -/
def within : Option Nat → Nat → Bool
  | none, _ => true
  | some m, n => decide (n ≤ m)

/-- The parameters are positive integers (00_scope.md R8). -/
def Params.wf : Params → Bool
  | .bounded e s w => decide (1 ≤ e) && decide (1 ≤ s) && decide (1 ≤ w)
  | .unbounded => true

/-- The widths are legal: `1 ≤ ew ≤ EW_MAX` and `1 ≤ sw ≤ SW_MAX` (00_scope.md R7, 40_decode.md R71). -/
def Params.legal (p : Params) (fmt : Format) : Bool :=
  decide (1 ≤ fmt.ew) && decide (1 ≤ fmt.sw) && within p.ewMax fmt.ew && within p.swMax fmt.sw

/-- `v` is a value an unsigned port of width `w` can carry. -/
def fitsUnsigned : Option Nat → Nat → Bool
  | none, _ => true
  | some w, v => decide (v < 2 ^ w)

/-- `v` is a value a signed (two's complement) port of width `w` can carry. -/
def fitsSigned : Option Nat → Int → Bool
  | none, _ => true
  | some w, v => decide (-(2 ^ w : Int) ≤ 2 * v) && decide (2 * v < (2 ^ w : Int))

/-- What an unsigned port of width `w` carries when it is driven with `v`: the low `w` bits. `zext_w(v)` of
00_scope.md R11 where `v < 2^w`. -/
def driveUnsigned : Option Nat → Nat → Nat
  | none, v => v
  | some w, v => v % 2 ^ w

/-- What a signed port of width `w` carries when it is driven with `v`: the two's complement value of the low `w`
bits. `sext_w(v)` of 00_scope.md R11, read back as a number, where `v` is in the port's range. Log 5. -/
def driveSigned : Option Nat → Int → Int
  | none, v => v
  | some w, v => v.bmod (2 ^ w)

/-- The wires of a signed port of width `w` that carries `v`: `sext_w(v)` as a bit pattern (00_scope.md R11). -/
def signedWires (w : Nat) (v : Int) : Nat := (v % (2 ^ w : Int)).toNat

/-- The width ports can carry these widths (30_encoding.md R60). -/
def Params.portsCarry (p : Params) (fmt : Format) : Bool :=
  fitsUnsigned p.ewiW fmt.ew && fitsUnsigned p.swiW fmt.sw

/-- A well-formed instance: positive parameters, and tied constants that their ports can carry. -/
def BlockConfig.wf (c : BlockConfig) : Bool :=
  c.params.wf && c.tied.all c.params.portsCarry

end Sys2Proof
end

