-- ==== Sys2Proof/WellFormed.lean ====
section
/-! DEFINITION. Which terms of `Instr` are instructions of a block with parameters `p`: legal widths (40_decode.md
R71) and fields inside the ranges of their class (30_encoding.md R54, R56). -/

namespace Sys2Proof

/-- The widths of the operation. -/
def Instr.format : Instr → Format
  | .decodeInfinity fmt _ => fmt
  | .decodeNan fmt _ _ => fmt
  | .decodeZero fmt _ => fmt
  | .decodeSubnormal fmt _ _ => fmt
  | .decodeNormal fmt _ _ _ => fmt

/-- The fields lie in the ranges that the row's encoding gives them (30_encoding.md R56). -/
def Instr.fieldsOk : Instr → Bool
  | .decodeInfinity _ _ => true
  | .decodeNan fmt _ f => decide (f ≠ 0) && decide (f < 2 ^ fmt.sw)
  | .decodeZero _ _ => true
  | .decodeSubnormal fmt _ f => decide (f ≠ 0) && decide (f < 2 ^ fmt.sw)
  | .decodeNormal fmt _ e f => decide (0 < e) && decide (e < 2 ^ fmt.ew - 1) && decide (f < 2 ^ fmt.sw)

/-- Legal widths for this block, and fields in range. -/
def Instr.wellFormed (p : Params) (i : Instr) : Bool := p.legal i.format && i.fieldsOk

end Sys2Proof
end

