-- ==== Sys2Proof/Decode.lean ====
section
/-! DEFINITION. Field extraction, classification, the decoder from the input ports to an instruction, and the
encoder back; the class map by match and mask. -/

namespace Sys2Proof

/-- `v[hi:lo]` (00_scope.md R10). -/
def slice (v hi lo : Nat) : Nat := v / 2 ^ lo % 2 ^ (hi - lo + 1)

/-- Bit `k` of `v` (00_scope.md R10). -/
def bitAt (v k : Nat) : Bit := BitVec.ofNat 1 (v / 2 ^ k)

/-- `N = 1 + ew + sw`, the number of low bits consulted (30_encoding.md R50, 40_decode.md R72). -/
def Format.wordBits (fmt : Format) : Nat := 1 + fmt.ew + fmt.sw

/-- The word: `w = bits mod 2^N` (30_encoding.md R52). -/
def Format.word (fmt : Format) (bits : Nat) : Nat := bits % 2 ^ fmt.wordBits

/-- `s := w[ew + sw]` (40_decode.md R73). -/
def Format.sign (fmt : Format) (w : Nat) : Bit := bitAt w (fmt.ew + fmt.sw)

/-- `e := w[ew + sw - 1 : sw]` (40_decode.md R74). -/
def Format.expField (fmt : Format) (w : Nat) : Nat := slice w (fmt.ew + fmt.sw - 1) fmt.sw

/-- `f := w[sw - 1 : 0]` (40_decode.md R75). -/
def Format.sigField (fmt : Format) (w : Nat) : Nat := slice w (fmt.sw - 1) 0

/-- `ALL1 = 2^ew - 1`, the all-ones exponent (40_decode.md R70). -/
def Format.allOnes (fmt : Format) : Nat := 2 ^ fmt.ew - 1

/-- The special-value classifier: the cases in the order of 40_decode.md R77. -/
def classify (fmt : Format) (e f : Nat) : WordClass :=
  if e = fmt.allOnes ∧ f = 0 then .infinity
  else if e = fmt.allOnes ∧ f ≠ 0 then .nan
  else if e = 0 then (if f = 0 then .zero else .subnormal)
  else .normal

/-- The class of the word that a bit pattern gives (30_encoding.md R56). -/
def Format.classOf (fmt : Format) (bits : Nat) : WordClass :=
  classify fmt (fmt.expField (fmt.word bits)) (fmt.sigField (fmt.word bits))

/-- Why the decoder rejects its inputs: the one error of 60_exceptions.md R120. -/
inductive DecodeError where
  | invalidParameter
  deriving DecidableEq, Repr

/-- The instruction that the fields of a word stand for. -/
def instrOfFields (fmt : Format) (s : Bit) (e f : Nat) : Instr :=
  match classify fmt e f with
  | .infinity => .decodeInfinity fmt s
  | .nan => .decodeNan fmt s f
  | .zero => .decodeZero fmt s
  | .subnormal => .decodeSubnormal fmt s f
  | .normal => .decodeNormal fmt s e f

/-- The decoder, total on any pattern and any widths. Validation comes first and reads the widths alone
(40_decode.md R71); then masking, extraction and classification (R72 to R77). -/
def decodeWord (p : Params) (bits ew sw : Nat) : Except DecodeError Instr :=
  if p.legal ⟨ew, sw⟩ then
    .ok (instrOfFields ⟨ew, sw⟩ (Format.sign ⟨ew, sw⟩ (Format.word ⟨ew, sw⟩ bits))
      (Format.expField ⟨ew, sw⟩ (Format.word ⟨ew, sw⟩ bits)) (Format.sigField ⟨ew, sw⟩ (Format.word ⟨ew, sw⟩ bits)))
  else .error .invalidParameter

/-- The word with sign `s`, exponent `e` and significand `f` (the layout of 30_encoding.md R51). -/
def Format.pack (fmt : Format) (s : Bit) (e f : Nat) : Nat :=
  s.toNat * 2 ^ (fmt.ew + fmt.sw) + e * 2 ^ fmt.sw + f

/-- The `N`-bit word of an instruction: the row's `encoding` in opcode_table.json. -/
def Instr.encode : Instr → Nat
  | .decodeInfinity fmt s => fmt.pack s fmt.allOnes 0
  | .decodeNan fmt s f => fmt.pack s fmt.allOnes f
  | .decodeZero fmt s => fmt.pack s 0 0
  | .decodeSubnormal fmt s f => fmt.pack s 0 f
  | .decodeNormal fmt s e f => fmt.pack s e f

/-- `EXP = (2^ew - 1) << sw`, the exponent field all ones (30_encoding.md R56). -/
def Format.expMask (fmt : Format) : Nat := (2 ^ fmt.ew - 1) <<< fmt.sw

/-- `MAG = 2^(ew + sw) - 1`, all bits but the sign (30_encoding.md R56). -/
def Format.magMask (fmt : Format) : Nat := 2 ^ (fmt.ew + fmt.sw) - 1

/-- The condition of each row of opcode_table.json on the word `w`, by match and mask (30_encoding.md R56). -/
def Format.rowMatches (fmt : Format) (w : Nat) : WordClass → Bool
  | .infinity => w &&& fmt.magMask == fmt.expMask
  | .nan => w &&& fmt.expMask == fmt.expMask && w &&& (2 ^ fmt.sw - 1) != 0
  | .zero => w &&& fmt.magMask == 0
  | .subnormal => w &&& fmt.expMask == 0 && w &&& (2 ^ fmt.sw - 1) != 0
  | .normal => w &&& fmt.expMask != 0 && w &&& fmt.expMask != fmt.expMask

/-- binary16, `(5, 10)` (30_encoding.md R55). -/
def Format.binary16 : Format := ⟨5, 10⟩

/-- binary32, `(8, 23)` (30_encoding.md R55). -/
def Format.binary32 : Format := ⟨8, 23⟩

/-- binary64, `(11, 52)` (30_encoding.md R55; there marked as general knowledge, Log 15). -/
def Format.binary64 : Format := ⟨11, 52⟩

/-- The pattern that a table word stands for: its `nbits` low bits, every bit above them 0. -/
def tablePattern (nbits w : Nat) : Nat := w % 2 ^ nbits

/-- The instruction the decoder reads from a table word. The table's concrete masks and matches are those of
binary32, so a table word is a binary32 pattern. Log 8. -/
def decodeTableWord (nbits w : Nat) : Option Instr :=
  match decodeWord BlockConfig.ofVectors.params (tablePattern nbits w) Format.binary32.ew Format.binary32.sw with
  | .ok i => some i
  | .error .invalidParameter => none

end Sys2Proof
end

