-- ==== Sys2Proof/Machine/Ports.lean ====
section
/-! DEFINITION. The input and output ports as data (10_state.md R28, R29), what the caller's moves do to the inputs,
and the abstract result read from the outputs (R30, R31). -/

namespace Sys2Proof

/-- The three input ports of 10_state.md R28, and whether the caller drives all of them and holds them stable
(70_reset_and_hazards.md R141, R143; Log 9). -/
structure Inputs where
  bitsIn : Nat
  ewIn : Nat
  swIn : Nat
  held : Bool
  deriving DecidableEq, Repr

/-- The output ports of 10_state.md R29, as last sampled. A signed port is kept as the number it carries (Log 5). -/
structure Outputs where
  err : BitVec 1
  cls : BitVec 3
  signOut : BitVec 1
  expFieldOut : Nat
  sigFieldOut : Nat
  expUnbOut : Int
  mantOut : Nat
  scaleOut : Int
  deriving DecidableEq, Repr

/-- `ANY` on an unsigned port of width `w` (00_scope.md R12). -/
def anyUnsigned (w : Option Nat) (port : OutPort) (n : Nat) : Nat := driveUnsigned w (Config.freeNat port n)

/-- `ANY` on a signed port of width `w` (00_scope.md R12). -/
def anySigned (w : Option Nat) (port : OutPort) (n : Nat) : Int := driveSigned w (Config.freeInt port n)

/-- `ANY` on every output port, at draw `n`. -/
def Outputs.any (p : Params) (n : Nat) : Outputs where
  err := BitVec.ofNat 1 (Config.freeNat .err n)
  cls := BitVec.ofNat 3 (Config.freeNat .cls n)
  signOut := BitVec.ofNat 1 (Config.freeNat .signOut n)
  expFieldOut := anyUnsigned p.ewMax .expFieldOut n
  sigFieldOut := anyUnsigned p.swMax .sigFieldOut n
  expUnbOut := anySigned p.expuW .expUnbOut n
  mantOut := anyUnsigned p.mantW .mantOut n
  scaleOut := anySigned p.scW .scaleOut n

/-- Every output port carries a value of its width (00_scope.md R8, 10_state.md R29). -/
def Outputs.inRange (p : Params) (o : Outputs) : Bool :=
  fitsUnsigned p.ewMax o.expFieldOut && fitsUnsigned p.swMax o.sigFieldOut && fitsSigned p.expuW o.expUnbOut
    && fitsUnsigned p.mantW o.mantOut && fitsSigned p.scW o.scaleOut

/-- Every input port carries a value of its width (10_state.md R28). -/
def Inputs.inRange (p : Params) (x : Inputs) : Bool :=
  fitsUnsigned p.inW x.bitsIn && p.portsCarry ⟨x.ewIn, x.swIn⟩

/-- The code of a class on `cls` (10_state.md R32). -/
def WordClass.code : WordClass → BitVec 3
  | .zero => 0
  | .subnormal => 1
  | .normal => 2
  | .infinity => 3
  | .nan => 4

/-- The abstract result that the output ports carry (10_state.md R30, R31). The codes 5, 6 and 7 are never produced
with `err = 0` (R32) and have no meaning: `none`, Log 19. -/
def Outputs.result (o : Outputs) : Option Result :=
  if o.err = 1 then some .invalidParameter
  else if o.cls = WordClass.code .zero ∨ o.cls = WordClass.code .subnormal ∨ o.cls = WordClass.code .normal then
    some (.finite o.signOut o.mantOut o.scaleOut)
  else if o.cls = WordClass.code .infinity then some (.inf o.signOut)
  else if o.cls = WordClass.code .nan then some (.nan o.signOut)
  else none

/-- The widths on the width ports when the caller drives `ew`, `sw`: the tied constants in a fixed-format instance
(00_scope.md R9), the caller's values otherwise. -/
def BlockConfig.widthsDriven (c : BlockConfig) (ew sw : Nat) : Format := c.tied.getD ⟨ew, sw⟩

/-- The input ports after the caller drives `DECODE bits, ew, sw` (30_encoding.md R62): `bits mod 2^IN_W` on `bits_in`
and the widths as they are on theirs, all held. Log 7 says what holds for a width that its port cannot carry. -/
def BlockConfig.drive (c : BlockConfig) (bits ew sw : Nat) : Inputs where
  bitsIn := driveUnsigned c.params.inW bits
  ewIn := (c.widthsDriven ew sw).ew
  swIn := (c.widthsDriven ew sw).sw
  held := true

/-- A move that the caller can make on this block: the width ports carry the widths it drives (Log 7). -/
def BlockConfig.carries (c : BlockConfig) : CallerAction → Bool
  | .decode _ ew sw => c.params.portsCarry (c.widthsDriven ew sw)
  | .disturb => true

/-- In a fixed-format instance the width ports carry the tied constants (00_scope.md R9). -/
def BlockConfig.tieHolds (c : BlockConfig) (x : Inputs) : Bool :=
  c.tied.all (fun fmt => decide (x.ewIn = fmt.ew) && decide (x.swIn = fmt.sw))

/-- A fixed-format instance whose tied widths are legal: "its InvalidParameter output is then constant 0"
(00_scope.md R9). -/
def BlockConfig.neverErrs (c : BlockConfig) : Bool := c.tied.any c.params.legal

/-- The outputs at power-up and while the inputs are not held: `ANY` (70_reset_and_hazards.md R141, R143), but for the
`err` of a fixed-format instance whose tied widths are legal, which is constant 0 (00_scope.md R9). That R9 decides there,
and not R141, is the model's choice: DESIGN CHOICE, Log 20. -/
def Outputs.unsettled (c : BlockConfig) (n : Nat) : Outputs :=
  { Outputs.any c.params n with err := if c.neverErrs then 0 else (Outputs.any c.params n).err }

/-- `DECODE.b16 bits` (30_encoding.md R61). -/
def CallerAction.b16 (bits : Nat) : CallerAction := .decode bits Format.binary16.ew Format.binary16.sw

/-- `DECODE.b32 bits` (30_encoding.md R61). -/
def CallerAction.b32 (bits : Nat) : CallerAction := .decode bits Format.binary32.ew Format.binary32.sw

/-- `DECODE.b64 bits` (30_encoding.md R61). -/
def CallerAction.b64 (bits : Nat) : CallerAction := .decode bits Format.binary64.ew Format.binary64.sw

/-- An operation whose widths are signed integers: every value `≤ 0` is treated the same way as 0 (10_state.md R28). -/
def CallerAction.decodeSigned (bits : Nat) (ew sw : Int) : CallerAction := .decode bits ew.toNat sw.toNat

/-- The operation that presents an instruction to the block: its word and its widths (30_encoding.md R61). -/
def Instr.operation (i : Instr) : CallerAction := .decode i.encode i.format.ew i.format.sw

end Sys2Proof
end

