-- ==== Sys2Proof/Machine/State.lean ====
section
/-! DEFINITION. The machine's state, the reasons a step can stop, and the state at power-up.

The block itself stores nothing (10_state.md R20); `State` holds what the spec names and what can be observed: its
parameters, its input ports, its output ports as last sampled; and two fields of the model's own, the caller's moves
still to come and the counter of the free values (Log 2, 3, 4). -/

namespace Sys2Proof.Machine

/-- Why the machine stops with a fault: never. "No behaviour of the block is modelled as `stuck`: every operation with
any inputs completes with a result or with InvalidParameter" (93_implementation_defined.md section 1). Log 6. -/
inductive Fault where
  deriving DecidableEq, Repr

/-- Why an instruction is refused. -/
inductive Refusal where
  /-- raised only by an arm of `exec` for an instruction that has no meaning yet: safe, since nothing is claimed of it.
  No arm of this model raises it. -/
  | notModelled (mnemonic : String)
  deriving DecidableEq, Repr

/-- The state of the machine: plain data. -/
structure State where
  /-- the block's parameters, which no step changes (00_scope.md R8, R9; Log 1) -/
  config : BlockConfig
  /-- the input ports (10_state.md R28) -/
  inputs : Inputs
  /-- the output ports as last sampled (10_state.md R29) -/
  outputs : Outputs
  /-- the model's own field: what the caller does next, first move first (Log 3) -/
  pending : List CallerAction
  /-- the model's own field: the next draw of a free value (Log 4) -/
  draws : Nat
  deriving DecidableEq, Repr

/-- The machine at power-up, for any instance: undriven inputs, every output `ANY` (70_reset_and_hazards.md R141) but
the `err` of a fixed-format instance with legal tied widths (Log 20). The width ports of a fixed-format instance carry
their constants (00_scope.md R9). Log 12. -/
def State.powerUp (c : BlockConfig) : State where
  config := c
  inputs := { bitsIn := 0, ewIn := (c.widthsDriven 0 0).ew, swIn := (c.widthsDriven 0 0).sw, held := false }
  outputs := Outputs.unsettled c 0
  pending := []
  draws := 1

/-- The machine right after reset. The block has no reset (70_reset_and_hazards.md R140), so this is power-up, of the
instance of 95_test_vectors.md section 3 (DESIGN CHOICE, Log 1). -/
def State.reset : State := State.powerUp BlockConfig.ofVectors

end Sys2Proof.Machine
end

