-- ==== Sys2Proof/Machine/Operands.lean ====
section
/-! DEFINITION. The bias, the biased-exponent unpacker, the implicit-bit restorer and the scale: the exact integer
quantities of 40_decode.md R76 and R80 to R83. -/

namespace Sys2Proof.Machine

/-- `B := 2^(ew - 1) - 1` (40_decode.md R76). -/
def bias (fmt : Format) : Int := 2 ^ (fmt.ew - 1) - 1

/-- The unbiased exponent of a zero exponent field: `eu := 1 - B` (40_decode.md R80; 90_conflicts.md C2). -/
def unbiasedZeroExp (fmt : Format) : Int := 1 - bias fmt

/-- The unbiased exponent of a normal word: `eu := e - B` (40_decode.md R82). -/
def unbiasedExp (fmt : Format) (e : Nat) : Int := e - bias fmt

/-- The mantissa of a normal word, the implicit bit restored: `m := f + 2^sw` (40_decode.md R82). -/
def restoredMantissa (fmt : Format) (f : Nat) : Nat := f + 2 ^ fmt.sw

/-- The scale: `k := eu - sw` (40_decode.md R83). -/
def scale (fmt : Format) (eu : Int) : Int := eu - fmt.sw

end Sys2Proof.Machine
end

