-- ==== Sys2Proof/Machine/Flags.lean ====
section
/-! DEFINITION. The result flags of an operation, `err` and `cls` (10_state.md R23, R29, R32). They are outputs of the
current operation, not stored flags, and the block has no others. -/

namespace Sys2Proof.Machine

/-- `err = 0`: a result is present (10_state.md R29). -/
def errNone : BitVec 1 := 0

/-- `err = 1`: InvalidParameter (10_state.md R29, 60_exceptions.md R120). -/
def errInvalidParameter : BitVec 1 := 1

/-- `cls` for an operation of class `c` (10_state.md R32). -/
def clsFlag (c : WordClass) : BitVec 3 := c.code

end Sys2Proof.Machine
end

