-- ==== Sys2Proof/Machine/Ops.lean ====
section
/-! DEFINITION. The named operations over the ports: the caller's move, driving the outputs, the one error.

The block has no memory and no registers (10_state.md R21, 20_memory.md R40), so there is no access to either. -/

namespace Sys2Proof.Machine

/-- The state after the caller makes a move (30_encoding.md R62, 70_reset_and_hazards.md R141, R143). The
spec gives undriven or changing inputs no value: that the ports keep the numbers they had, with `held` false, is the
model's choice (DESIGN CHOICE, Log 21), and no step reads them. -/
def State.afterMove (s : State) : CallerAction → State
  | .decode bits ew sw => { s with inputs := s.config.drive bits ew sw }
  | .disturb => { s with inputs := { s.inputs with held := false } }

/-- The caller's next move, taken off the list; a caller with no move left leaves the inputs as they are. -/
def State.present (s : State) : State :=
  match s.pending with
  | [] => s
  | a :: rest => ({ s with pending := rest } : State).afterMove a

/-- Sampling while an input is undriven, changing or unsettled: every output is `ANY` (70_reset_and_hazards.md R141,
R143), but the `err` of a fixed-format instance with legal tied widths, which is 0 (00_scope.md R9, Log 20). -/
def State.sampleUnsettled (s : State) : State :=
  { s with outputs := Outputs.unsettled s.config s.draws, draws := s.draws + 1 }

/-- TAKING THE ONE ERROR (60_exceptions.md R120, 40_decode.md R71): `err` is 1 and every other output is `ANY`. It saves
no state, changes no mode and transfers control nowhere (R125), and there is nothing to return from (R126): the next
operation starts from this state like any other. -/
def State.raiseInvalidParameter (s : State) : State :=
  { s with
    outputs := { Outputs.any s.config.params s.draws with err := errInvalidParameter }
    draws := s.draws + 1 }

/-- The outputs of a class that has no magnitude: the sign and the two fields are driven, `exp_unb_out`, `mant_out` and
`scale_out` are `ANY` (40_decode.md R73 to R75, R86). -/
def State.driveSpecial (s : State) (c : WordClass) (sign : Bit) (e f : Nat) : State :=
  { s with
    outputs := { Outputs.any s.config.params s.draws with
      err := errNone
      cls := clsFlag c
      signOut := sign
      expFieldOut := driveUnsigned s.config.params.ewMax e
      sigFieldOut := driveUnsigned s.config.params.swMax f }
    draws := s.draws + 1 }

/-- The outputs of a class that has a magnitude, all of them driven (40_decode.md R70, R73 to R75, R83). -/
def State.driveFinite (s : State) (fmt : Format) (c : WordClass) (sign : Bit) (e f : Nat) (eu : Int) (m : Nat) : State :=
  { s with
    outputs :=
      { err := errNone
        cls := clsFlag c
        signOut := sign
        expFieldOut := driveUnsigned s.config.params.ewMax e
        sigFieldOut := driveUnsigned s.config.params.swMax f
        expUnbOut := driveSigned s.config.params.expuW eu
        mantOut := driveUnsigned s.config.params.mantW m
        scaleOut := driveSigned s.config.params.scW (scale fmt eu) } }

/-- Validation comes first and reads the widths alone (40_decode.md R71): `t` where they are legal, the error where
they are not. -/
def State.validated (s : State) (fmt : Format) (t : State) : Host.Outcome State Fault Refusal :=
  .next (if s.config.params.legal fmt then t else s.raiseInvalidParameter)

end Sys2Proof.Machine
end

