-- ==== Sys2Proof/Machine/Finite.lean ====
section
/-! DEFINITION. The class forms with a magnitude: DECODE.ZERO, DECODE.SUBNORMAL and DECODE.NORMAL. -/

namespace Sys2Proof.Machine

/-- DECODE.ZERO (40_decode.md R80, R81): result `Finite(s, 0, 1 - B - sw)`. -/
def execDecodeZero (fmt : Format) (sign : Bit) (s : State) : Host.Outcome State Fault Refusal :=
  s.validated fmt (s.driveFinite fmt .zero sign 0 0 (unbiasedZeroExp fmt) 0)

/-- DECODE.SUBNORMAL (40_decode.md R80): result `Finite(s, f, 1 - B - sw)`. -/
def execDecodeSubnormal (fmt : Format) (sign : Bit) (f : Nat) (s : State) : Host.Outcome State Fault Refusal :=
  s.validated fmt (s.driveFinite fmt .subnormal sign 0 f (unbiasedZeroExp fmt) f)

/-- DECODE.NORMAL (40_decode.md R82): result `Finite(s, f + 2^sw, e - B - sw)`. -/
def execDecodeNormal (fmt : Format) (sign : Bit) (e f : Nat) (s : State) : Host.Outcome State Fault Refusal :=
  s.validated fmt (s.driveFinite fmt .normal sign e f (unbiasedExp fmt e) (restoredMantissa fmt f))

end Sys2Proof.Machine
end

