-- ==== Sys2Proof/Machine/Special.lean ====
section
/-! DEFINITION. The class forms without a magnitude: DECODE.INFINITY and DECODE.NAN. -/

namespace Sys2Proof.Machine

/-- DECODE.INFINITY (40_decode.md R78): result `Inf(s)`. -/
def execDecodeInfinity (fmt : Format) (sign : Bit) (s : State) : Host.Outcome State Fault Refusal :=
  s.validated fmt (s.driveSpecial .infinity sign fmt.allOnes 0)

/-- DECODE.NAN (40_decode.md R79): result `NaN(s)`; the payload is passed on `sig_field_out` (R75). -/
def execDecodeNan (fmt : Format) (sign : Bit) (f : Nat) (s : State) : Host.Outcome State Fault Refusal :=
  s.validated fmt (s.driveSpecial .nan sign fmt.allOnes f)

end Sys2Proof.Machine
end

