-- ==== Sys2Proof/Machine/Dispatch.lean ====
section
/-! DEFINITION. One arm per row of opcode_table.json. -/

namespace Sys2Proof.Machine

def exec (i : Instr) (s : State) : Host.Outcome State Fault Refusal :=
  match i with
  | .decodeInfinity fmt sign => Sys2Proof.Machine.execDecodeInfinity fmt sign s
  | .decodeNan fmt sign f => Sys2Proof.Machine.execDecodeNan fmt sign f s
  | .decodeZero fmt sign => Sys2Proof.Machine.execDecodeZero fmt sign s
  | .decodeSubnormal fmt sign f => Sys2Proof.Machine.execDecodeSubnormal fmt sign f s
  | .decodeNormal fmt sign e f => Sys2Proof.Machine.execDecodeNormal fmt sign e f s

end Sys2Proof.Machine
end

