-- ==== Sys2Proof/Machine/Step.lean ====
section
/-! DEFINITION. One step: the caller makes its move, then the outputs are sampled. One step is one DECODE operation
(10_state.md R22, 20_memory.md R44). -/

namespace Sys2Proof.Machine

/-- Sampling the outputs: `ANY` where the inputs are not held (70_reset_and_hazards.md R143); else the operation that the
input ports give: validation first (40_decode.md R71), then the class form that the word selects. -/
def State.sample (s : State) : Host.Outcome State Fault Refusal :=
  if s.inputs.held then
    match decodeWord s.config.params s.inputs.bitsIn s.inputs.ewIn s.inputs.swIn with
    | .ok i => exec i s
    | .error .invalidParameter => .next s.raiseInvalidParameter
  else .next s.sampleUnsettled

/-- One step. -/
def step (s : State) : Host.Outcome State Fault Refusal := s.present.sample

/-- The state in which the caller's next move is the operation of a table word: a binary32 pattern (Log 8). -/
def State.withFetchWord (s : State) (nbits w : Nat) : State :=
  { s with pending := CallerAction.b32 (tablePattern nbits w) :: s.pending }

end Sys2Proof.Machine
end

