-- ==== Sys2Proof/Machine/Pseudocode.lean ====
section
/-! DEFINITION. What may be read of the outputs, and the pseudocode of 40_decode.md R70 as one pure function of the
three inputs, in the order the spec writes it. The machine does not call it; statements say that the machine computes
it. -/

namespace Sys2Proof.Machine

/-- The output ports with the values that 10_state.md R29 defines; `none` is a port that carries `ANY`. -/
structure Defined where
  err : BitVec 1
  cls : Option (BitVec 3)
  signOut : Option (BitVec 1)
  expFieldOut : Option Nat
  sigFieldOut : Option Nat
  expUnbOut : Option Int
  mantOut : Option Nat
  scaleOut : Option Int
  deriving DecidableEq, Repr

/-- The class on `cls` has a magnitude: ZERO, SUBNORMAL or NORMAL. -/
def hasMagnitude (o : Outputs) : Bool :=
  o.err == errNone && (o.cls == clsFlag .zero || o.cls == clsFlag .subnormal || o.cls == clsFlag .normal)

/-- What a claim may read of the outputs: the "defined when" column of 10_state.md R29. -/
def definedPorts (o : Outputs) : Defined where
  err := o.err
  cls := if o.err = errNone then some o.cls else none
  signOut := if o.err = errNone then some o.signOut else none
  expFieldOut := if o.err = errNone then some o.expFieldOut else none
  sigFieldOut := if o.err = errNone then some o.sigFieldOut else none
  expUnbOut := if hasMagnitude o then some o.expUnbOut else none
  mantOut := if hasMagnitude o then some o.mantOut else none
  scaleOut := if hasMagnitude o then some o.scaleOut else none

/-- `DECODE()` of 40_decode.md R70: the result it returns and the outputs it drives, a port it drives with `ANY` being
`none`. With `p = .unbounded` it is the source's arbitrary-precision decoder (00_scope.md R8). -/
def decodePseudocode (p : Params) (bits ew sw : Nat) : Result × Defined :=
  if ew < 1 ∨ sw < 1 ∨ within p.ewMax ew = false ∨ within p.swMax sw = false then
    (.invalidParameter, ⟨1, none, none, none, none, none, none, none⟩)
  else
    let w := bits % 2 ^ (1 + ew + sw)
    let s := bitAt w (ew + sw)
    let e := slice w (ew + sw - 1) sw
    let f := slice w (sw - 1) 0
    let b : Int := 2 ^ (ew - 1) - 1
    let all1 := 2 ^ ew - 1
    if e = all1 ∧ f = 0 then (.inf s, ⟨0, some 3, some s, some e, some f, none, none, none⟩)
    else if e = all1 ∧ f ≠ 0 then (.nan s, ⟨0, some 4, some s, some e, some f, none, none, none⟩)
    else if e = 0 then
      let eu := 1 - b
      let k := eu - sw
      (.finite s f k, ⟨0, some (if f = 0 then 0 else 1), some s, some e, some f, some eu, some f, some k⟩)
    else
      let eu := e - b
      let m := f + 2 ^ sw
      let k := eu - sw
      (.finite s m k, ⟨0, some 2, some s, some e, some f, some eu, some m, some k⟩)

end Sys2Proof.Machine
end

