-- ==== Sys2Proof/Machine/Render.lean ====
section
/-! DEFINITION. The real value of a result and its binary64 rendering (41_render.md). Functions of the result, outside
the block; no step uses them. -/

namespace Sys2Proof.Machine

/-- `2^k` as an exact rational (00_scope.md R11). -/
def pow2 : Int → Rat
  | .ofNat n => ((2 ^ n : Nat) : Rat)
  | .negSucc n => 1 / ((2 ^ (n + 1) : Nat) : Rat)

/-- The magnitude `m * 2^k` (40_decode.md R83). -/
def magnitude (m : Nat) (k : Int) : Rat := (m : Rat) * pow2 k

/-- What a result denotes (41_render.md R110). -/
inductive Denoted where
  /-- an error denotes nothing -/
  | nothing
  | rational (q : Rat)
  | posZero
  | negZero
  | posInfinity
  | negInfinity
  | posNaN
  | negNaN
  deriving DecidableEq, Repr

/-- The real value of a result (41_render.md R110). -/
def denoted : Result → Denoted
  | .invalidParameter => .nothing
  | .finite s m k =>
    if m = 0 then (if s = 0 then .posZero else .negZero)
    else .rational (if s = 0 then magnitude m k else -magnitude m k)
  | .inf s => if s = 0 then .posInfinity else .negInfinity
  | .nan s => if s = 0 then .posNaN else .negNaN

/-- `m = m' * 2^t` with `m'` odd (41_render.md R112): the pair `(m', t)`, for `m` of at most `fuel` bits. -/
def splitOdd : Nat → Nat → Nat × Nat
  | 0, m => (m, 0)
  | fuel + 1, m =>
    if m % 2 = 1 then (m, 0)
    else ((splitOdd fuel (m / 2)).1, (splitOdd fuel (m / 2)).2 + 1)

/-- `m'`, the odd part of `m ≠ 0` (41_render.md R112). -/
def oddPart (m : Nat) : Nat := (splitOdd (bitlen m) m).1

/-- `t`, the number of factors 2 of `m ≠ 0` (41_render.md R112). -/
def twos (m : Nat) : Nat := (splitOdd (bitlen m) m).2

/-- Exact representability in binary64 (41_render.md R112; there marked as general knowledge, Log 15). -/
def representable64 (m : Nat) (k : Int) : Bool :=
  decide (m = 0) ||
    (decide (bitlen (oddPart m) ≤ 53) && decide (-1074 ≤ k + twos m) && decide (k + twos m + bitlen (oddPart m) ≤ 1024))

/-- The exponent of the unit in the last place of the binary64 value `m' * 2^q`. -/
def unitExp64 (m' : Nat) (q : Int) : Int := max (q + bitlen m' - 53) (-1074)

/-- The binary64 word, without its sign, of `n` units of `2^u`, `n ≤ 2^53`: the implicit bit of `n ≥ 2^52` adds 1 to the
exponent field. -/
def unitsWord64 (n : Nat) (u : Int) : Nat := (u + 1074).toNat * 2 ^ 52 + n

/-- The binary64 word, without its sign, that represents `m * 2^k` exactly, where there is one (41_render.md R111, R112). -/
def exactWord64 (m : Nat) (k : Int) : Nat :=
  if m = 0 then 0
  else
    unitsWord64 (oddPart m * 2 ^ (k + twos m - unitExp64 (oddPart m) (k + twos m)).toNat)
      (unitExp64 (oddPart m) (k + twos m))

/-- The binary64 word of sign `s` and magnitude word `w`. -/
def signed64 (s : Bit) (w : Nat) : BitVec 64 := BitVec.ofNat 64 (Format.binary64.pack s 0 w)

/-- The payload of the rendered NaN of sign `s`: open, and not 0, since it is a NaN (41_render.md R111). -/
def renderedPayload (s : Bit) : Nat := if Config.nanPayload s = 0 then 1 else (Config.nanPayload s).toNat

/-- `render64` (41_render.md R111): exact where the value is representable, OPEN where it is not. An error has no
rendering. -/
def render64 : Result → Option (BitVec 64)
  | .invalidParameter => none
  | .finite s m k => some (if representable64 m k then signed64 s (exactWord64 m k) else Config.renderOpen s m k)
  | .inf s => some (signed64 s (Format.binary64.pack 0 Format.binary64.allOnes 0))
  | .nan s => some (signed64 s (Format.binary64.pack 0 Format.binary64.allOnes (renderedPayload s)))

/-- `m / 2^d` rounded to the nearest integer, ties to even. -/
def roundShift (m d : Nat) : Nat :=
  if m % 2 ^ d * 2 < 2 ^ d ∨ (m % 2 ^ d * 2 = 2 ^ d ∧ m / 2 ^ d % 2 = 0) then m / 2 ^ d else m / 2 ^ d + 1

/-- The rendering the spec recommends and does not require (41_render.md R111, 93 G3): round to nearest, ties to even,
overflow to infinity, underflow to a subnormal or zero. `render64` does not use it: it is the property
`Config.renderOpen = roundNearestEven64` that a claim may name. Log 11. -/
def roundNearestEven64 (s : Bit) (m : Nat) (k : Int) : BitVec 64 :=
  signed64 s (min (Format.binary64.pack 0 Format.binary64.allOnes 0)
    (if m = 0 then 0
     else if unitExp64 m k ≤ k then unitsWord64 (m * 2 ^ (k - unitExp64 m k).toNat) (unitExp64 m k)
     else unitsWord64 (roundShift m (unitExp64 m k - k).toNat) (unitExp64 m k)))

end Sys2Proof.Machine
end

