-- ==== Sys2Proof/Safety.lean ====
section
/-! DEFINITION. The terms that claims about the machine are stated in: the invariant of the ports, the caller's part of
the contract, and runs that do not stop. -/

namespace Sys2Proof.Machine

/-- The invariant of the ports: the instance is well-formed, every input and output port carries a value of its width
(10_state.md R28, R29), the width ports of a fixed-format instance carry their constants and its `err` is 0 where they
are legal (00_scope.md R9), and the caller's moves are ones that the width ports can carry (30_encoding.md R60). -/
structure State.Inv (s : State) : Prop where
  configWf : s.config.wf = true
  inputsInRange : s.inputs.inRange s.config.params = true
  tie : s.config.tieHolds s.inputs = true
  outputsInRange : s.outputs.inRange s.config.params = true
  errQuiet : s.config.neverErrs = true → s.outputs.err = 0
  moves : s.pending.all s.config.carries = true

/-- The abstract result on the output ports (10_state.md R30). -/
def State.result (s : State) : Option Result := s.outputs.result

/-- The widths that the next operation is given on the width ports. -/
def State.nextFormat (s : State) : Format := ⟨s.present.inputs.ewIn, s.present.inputs.swIn⟩

/-- The word that the next operation consults: `bits_in mod 2^N` (30_encoding.md R52). -/
def State.nextWord (s : State) : Nat := s.nextFormat.word s.present.inputs.bitsIn

/-- The caller keeps its part for the next operation: after its move, all inputs are driven and held
(70_reset_and_hazards.md R143). -/
def State.Held (s : State) : Prop := s.present.inputs.held = true

/-- The next operation is held and its widths are legal (40_decode.md R71). -/
def State.Ready (s : State) : Prop := s.Held ∧ s.config.params.legal s.nextFormat = true

/-- A run of `k` steps that does not stop. -/
def Completes (k : Nat) (s : State) : Prop := ∃ t, Sys2Proof.core.run k s = .next t

end Sys2Proof.Machine
end

