-- ==== Sys2Proof/Certificates/Slice0/Obligations.lean ====
section
/-! DEFINITION. The statements about the model, for the provers. -/

open Sys2Proof Sys2Proof.Machine

/-! ## Steps -/

/-- A step runs the decoded instruction: where the inputs are held after the caller's move and the decoder reads `i`
from them, the step is `exec i`; the move itself changes the inputs and the list of moves, nothing else. -/
def Obligations.StepRunsDecodedOperation : Prop :=
  ∀ s : State,
    (∀ i, s.Held →
      decodeWord s.config.params s.present.inputs.bitsIn s.present.inputs.ewIn s.present.inputs.swIn = .ok i →
      step s = exec i s.present) ∧
    s.present.config = s.config ∧ s.present.outputs = s.outputs ∧ s.present.draws = s.draws ∧
    s.present.pending = s.pending.tail

/-- 30_encoding.md R62, 00_scope.md R8, R9: what the caller's operation drives on the input ports, and that it changes
nothing else: of a bounded block whose width ports are not tied and can carry the widths, of the unbounded block, and of
a fixed-format instance, bounded or unbounded, where the width ports carry the tied constants (that the caller's own
widths are not used there is the model's reading, log 17). A caller with no move left leaves everything as it is (the
model's choice, log 3). -/
def Obligations.CallerDrivesOperationOnPorts : Prop :=
  (∀ (s : State) (ewMax swMax inW bits ew sw : Nat) (rest : List CallerAction),
    s.config = ⟨.bounded ewMax swMax inW, none⟩ → s.pending = .decode bits ew sw :: rest →
    ew < 2 ^ bitlen ewMax → sw < 2 ^ bitlen swMax →
    s.present = { s with pending := rest
                         inputs := { bitsIn := bits % 2 ^ inW, ewIn := ew, swIn := sw, held := true } }) ∧
  (∀ (s : State) (bits ew sw : Nat) (rest : List CallerAction),
    s.config = ⟨.unbounded, none⟩ → s.pending = .decode bits ew sw :: rest →
    s.present = { s with pending := rest, inputs := { bitsIn := bits, ewIn := ew, swIn := sw, held := true } }) ∧
  (∀ (s : State) (ewMax swMax inW bits ew sw : Nat) (fmt : Format) (rest : List CallerAction),
    s.config = ⟨.bounded ewMax swMax inW, some fmt⟩ → s.pending = .decode bits ew sw :: rest →
    s.present = { s with pending := rest
                         inputs := { bitsIn := bits % 2 ^ inW, ewIn := fmt.ew, swIn := fmt.sw, held := true } }) ∧
  (∀ (s : State) (bits ew sw : Nat) (fmt : Format) (rest : List CallerAction),
    s.config = ⟨.unbounded, some fmt⟩ → s.pending = .decode bits ew sw :: rest →
    s.present = { s with pending := rest
                         inputs := { bitsIn := bits, ewIn := fmt.ew, swIn := fmt.sw, held := true } }) ∧
  (∀ s : State, s.pending = [] → s.present = s)

/-- 40_decode.md R71: the check reads the widths alone; where it fails, `err` is 1 and every other output is a free
draw; where it passes, `err` is 0 and the operation produces a result. -/
def Obligations.IllegalWidthsRaiseInvalidParameter : Prop :=
  ∀ s : State, s.Held →
    ((s.nextFormat.ew < 1 ∨ s.nextFormat.sw < 1 ∨ within s.config.params.ewMax s.nextFormat.ew = false ∨
        within s.config.params.swMax s.nextFormat.sw = false) →
      ∃ t, step s = .next t ∧ t.result = some .invalidParameter ∧
        t = { s.present with outputs := { Outputs.any s.config.params s.draws with err := 1 }
                             draws := s.draws + 1 }) ∧
    (¬ (s.nextFormat.ew < 1 ∨ s.nextFormat.sw < 1 ∨ within s.config.params.ewMax s.nextFormat.ew = false ∨
        within s.config.params.swMax s.nextFormat.sw = false) →
      ∃ t, step s = .next t ∧ t.outputs.err = 0 ∧ ∃ r, t.result = some r ∧ r ≠ .invalidParameter)

/-- 10_state.md R28: an operation whose widths are signed integers, one of them not positive, is rejected like one with
a width 0, on a block whose width ports are not tied. -/
def Obligations.NonPositiveWidthsAreRejected : Prop :=
  ∀ (s : State) (bits : Nat) (ew sw : Int) (rest : List CallerAction),
    s.config.tied = none → s.pending = .decodeSigned bits ew sw :: rest → ew ≤ 0 ∨ sw ≤ 0 →
    ∃ t, step s = .next t ∧ t.outputs.err = 1 ∧ t.result = some .invalidParameter

/-- 70_reset_and_hazards.md R141, R143: outputs sampled while the inputs are not held are free draws (the model's form of
`ANY`, log 4), and the operation still completes. `err` is among them (the model's reading of R29 and one `held` flag for
all inputs, log 9), but for a fixed-format instance with legal tied widths, where it is 0 (00_scope.md R9 followed and
not R141, the model's choice, log 20). -/
def Obligations.UnsettledInputsSampleFreeValues : Prop :=
  ∀ s : State, ¬ s.Held →
    (¬ (∃ fmt, s.config.tied = some fmt ∧ s.config.params.legal fmt = true) →
      step s = .next { s.present with outputs := Outputs.any s.config.params s.draws, draws := s.draws + 1 }) ∧
    ((∃ fmt, s.config.tied = some fmt ∧ s.config.params.legal fmt = true) →
      step s = .next { s.present with
        outputs := { Outputs.any s.config.params s.draws with err := 0 }
        draws := s.draws + 1 })

/-- Frame of a step: the parameters never change, the inputs are those of the caller's move, one move is used up. -/
def Obligations.StepChangesOnlyPortsAndMoves : Prop :=
  ∀ s t : State, step s = .next t →
    t.config = s.config ∧ t.inputs = s.present.inputs ∧ t.pending = s.pending.tail ∧
    (t.draws = s.draws ∨ t.draws = s.draws + 1)

/-- 70_reset_and_hazards.md R141, R143: after the caller's move `disturb` the inputs are not held. The three input ports
keep the numbers they had (the model's choice, log 21; no step reads them while they are not held), and only the list of
moves changes besides (log 3). The caller's next operation drives and holds the inputs again. -/
def Obligations.DisturbLeavesInputsUnheld : Prop :=
  ∀ (s : State) (rest : List CallerAction), s.pending = .disturb :: rest →
    ¬ s.Held ∧
    s.present = { s with pending := rest
                         inputs := { bitsIn := s.inputs.bitsIn, ewIn := s.inputs.ewIn, swIn := s.inputs.swIn
                                     held := false } } ∧
    ∃ t, step s = .next t ∧ t.inputs = s.present.inputs ∧ t.pending = rest ∧
      ∀ bits ew sw rest', rest = .decode bits ew sw :: rest' → t.Held ∧ t.present.inputs = s.config.drive bits ew sw

/-! ## The class forms -/

/-- Frame of every instruction, of any fields and widths: it drives the outputs and may use up one free draw; the
parameters, the inputs and the caller's moves are unchanged. -/
def Obligations.ClassFormsChangeOnlyOutputs : Prop :=
  ∀ (i : Instr) (s : State), ∃ t, exec i s = .next t ∧
    t.config = s.config ∧ t.inputs = s.inputs ∧ t.pending = s.pending ∧
    (t.draws = s.draws ∨ t.draws = s.draws + 1)

/-- 40_decode.md R78, DECODE.INFINITY: its encoding, the outputs it drives (the rest are free draws), its result. -/
def Obligations.InfinityClassForm : Prop :=
  ∀ (s : State) (fmt : Format) (sign : Bit), s.config.params.legal fmt = true →
    (∃ t, exec (.decodeInfinity fmt sign) s = .next t ∧ t.result = some (.inf sign) ∧
      t = { s with
        outputs := { Outputs.any s.config.params s.draws with
          err := 0, cls := 3, signOut := sign, expFieldOut := 2 ^ fmt.ew - 1, sigFieldOut := 0 }
        draws := s.draws + 1 }) ∧
    denoted (.inf sign) = (if sign = 0 then .posInfinity else .negInfinity) ∧
    (∀ bits, fmt.sign (fmt.word bits) = sign → fmt.expField (fmt.word bits) = 2 ^ fmt.ew - 1 →
      fmt.sigField (fmt.word bits) = 0 →
      decodeWord s.config.params bits fmt.ew fmt.sw = .ok (.decodeInfinity fmt sign))

/-- 40_decode.md R79, DECODE.NAN: its encoding, the outputs it drives (the payload unchanged on `sig_field_out`, the
rest free draws), its result, which is the same for every payload; with `sw = 1` the only significand is 1. -/
def Obligations.NanClassForm : Prop :=
  ∀ (s : State) (fmt : Format) (sign : Bit) (f : Nat),
    (Instr.decodeNan fmt sign f).wellFormed s.config.params = true →
    (∃ t, exec (.decodeNan fmt sign f) s = .next t ∧ t.result = some (.nan sign) ∧
      t = { s with
        outputs := { Outputs.any s.config.params s.draws with
          err := 0, cls := 4, signOut := sign, expFieldOut := 2 ^ fmt.ew - 1, sigFieldOut := f }
        draws := s.draws + 1 }) ∧
    (fmt.sw = 1 → f = 1) ∧
    (∀ bits, fmt.sign (fmt.word bits) = sign → fmt.expField (fmt.word bits) = 2 ^ fmt.ew - 1 →
      fmt.sigField (fmt.word bits) = f →
      decodeWord s.config.params bits fmt.ew fmt.sw = .ok (.decodeNan fmt sign f))

/-- 40_decode.md R80, R81, DECODE.ZERO and DECODE.SUBNORMAL (a zero exponent field): their encodings, all their outputs
(the exponent `1 - B`, that of the smallest normal, the mantissa without an implicit bit), their results. ZERO denotes
zero with the sign kept; a subnormal value is below that of the smallest normal; `ew = 1` gives the exponent 1. -/
def Obligations.ZeroExponentClassForms : Prop :=
  ∀ (s : State) (fmt : Format) (sign : Bit), s.config.params.legal fmt = true →
    (∃ t, exec (.decodeZero fmt sign) s = .next t ∧
      t.result = some (.finite sign 0 (1 - (2 ^ (fmt.ew - 1) - 1) - fmt.sw)) ∧
      t = { s with
        outputs :=
          { err := 0, cls := 0, signOut := sign, expFieldOut := 0, sigFieldOut := 0
            expUnbOut := 1 - (2 ^ (fmt.ew - 1) - 1), mantOut := 0
            scaleOut := 1 - (2 ^ (fmt.ew - 1) - 1) - fmt.sw } }) ∧
    (∀ k, denoted (.finite sign 0 k) = (if sign = 0 then .posZero else .negZero)) ∧
    decodeWord s.config.params 0 fmt.ew fmt.sw = .ok (.decodeZero fmt 0) ∧
    decodeWord s.config.params (2 ^ (fmt.ew + fmt.sw)) fmt.ew fmt.sw = .ok (.decodeZero fmt 1) ∧
    (∀ f, f ≠ 0 → f < 2 ^ fmt.sw →
      (∃ t, exec (.decodeSubnormal fmt sign f) s = .next t ∧
        t.result = some (.finite sign f (1 - (2 ^ (fmt.ew - 1) - 1) - fmt.sw)) ∧
        t = { s with
          outputs :=
            { err := 0, cls := 1, signOut := sign, expFieldOut := 0, sigFieldOut := f
              expUnbOut := 1 - (2 ^ (fmt.ew - 1) - 1), mantOut := f
              scaleOut := 1 - (2 ^ (fmt.ew - 1) - 1) - fmt.sw } }) ∧
      magnitude f (1 - (2 ^ (fmt.ew - 1) - 1) - fmt.sw)
        < magnitude (2 ^ fmt.sw) (1 - (2 ^ (fmt.ew - 1) - 1) - fmt.sw)) ∧
    (fmt.ew = 1 → (1 - (2 ^ (fmt.ew - 1) - 1) : Int) = 1) ∧
    (∀ bits, fmt.sign (fmt.word bits) = sign → fmt.expField (fmt.word bits) = 0 →
      decodeWord s.config.params bits fmt.ew fmt.sw =
        .ok (if fmt.sigField (fmt.word bits) = 0 then .decodeZero fmt sign
             else .decodeSubnormal fmt sign (fmt.sigField (fmt.word bits))))

/-- 40_decode.md R82, DECODE.NORMAL: its encoding, all its outputs (the bias subtracted, the implicit bit restored), its
result, the ranges of its mantissa and exponent, and the largest finite value as a bound; it needs `ew ≥ 2`. -/
def Obligations.NormalClassForm : Prop :=
  ∀ (s : State) (fmt : Format) (sign : Bit) (e f : Nat),
    (Instr.decodeNormal fmt sign e f).wellFormed s.config.params = true →
    (∃ t, exec (.decodeNormal fmt sign e f) s = .next t ∧
      t.result = some (.finite sign (f + 2 ^ fmt.sw) (e - (2 ^ (fmt.ew - 1) - 1) - fmt.sw)) ∧
      t = { s with
        outputs :=
          { err := 0, cls := 2, signOut := sign, expFieldOut := e, sigFieldOut := f
            expUnbOut := e - (2 ^ (fmt.ew - 1) - 1), mantOut := f + 2 ^ fmt.sw
            scaleOut := e - (2 ^ (fmt.ew - 1) - 1) - fmt.sw } }) ∧
    bitAt (f + 2 ^ fmt.sw) fmt.sw = 1 ∧ slice (f + 2 ^ fmt.sw) (fmt.sw - 1) 0 = f ∧
    2 ^ fmt.sw ≤ f + 2 ^ fmt.sw ∧ f + 2 ^ fmt.sw ≤ 2 ^ (fmt.sw + 1) - 1 ∧
    (1 - (2 ^ (fmt.ew - 1) - 1) : Int) ≤ e - (2 ^ (fmt.ew - 1) - 1) ∧
    (e - (2 ^ (fmt.ew - 1) - 1) : Int) ≤ 2 ^ (fmt.ew - 1) - 1 ∧
    magnitude (f + 2 ^ fmt.sw) (e - (2 ^ (fmt.ew - 1) - 1) - fmt.sw)
      ≤ magnitude (2 ^ (fmt.sw + 1) - 1) (2 ^ (fmt.ew - 1) - 1 - fmt.sw) ∧
    2 ≤ fmt.ew ∧
    (∀ bits, fmt.sign (fmt.word bits) = sign → fmt.expField (fmt.word bits) = e →
      fmt.sigField (fmt.word bits) = f →
      decodeWord s.config.params bits fmt.ew fmt.sw = .ok (.decodeNormal fmt sign e f))

/-! ## Encoding -/

/-- Words written out from 30_encoding.md R56 and the worked examples of 95_test_vectors.md decode to the instructions
they stand for. -/
def Obligations.ReferenceWordsDecode : Prop :=
  decodeWord (.bounded 11 52 64) 0x7F800000 8 23 = .ok (.decodeInfinity ⟨8, 23⟩ 0) ∧
  decodeWord (.bounded 11 52 64) 0xFF800001 8 23 = .ok (.decodeNan ⟨8, 23⟩ 1 1) ∧
  decodeWord (.bounded 11 52 64) 0x80000000 8 23 = .ok (.decodeZero ⟨8, 23⟩ 1) ∧
  decodeWord (.bounded 11 52 64) 0x0001 5 10 = .ok (.decodeSubnormal ⟨5, 10⟩ 0 1) ∧
  decodeWord (.bounded 11 52 64) 0xABCD 5 10 = .ok (.decodeNormal ⟨5, 10⟩ 1 10 0x3CD) ∧
  decodeWord (.bounded 11 52 64) 0x3C00 12 10 = .error .invalidParameter

/-- Decode and encode agree: every well-formed instruction of the block is what its encoded word decodes to. -/
def Obligations.DecodeOfEncodeGivesInstruction : Prop :=
  ∀ (p : Params) (i : Instr), i.wellFormed p = true →
    decodeWord p i.encode i.format.ew i.format.sw = .ok i

/-- The other direction: what decodes is well-formed, has the widths it was decoded with, and encodes to the consulted
bits of the pattern. -/
def Obligations.EncodeOfDecodeGivesWord : Prop :=
  ∀ (p : Params) (bits ew sw : Nat) (i : Instr), decodeWord p bits ew sw = .ok i →
    i.wellFormed p = true ∧ i.format = ⟨ew, sw⟩ ∧ i.encode = bits % 2 ^ (1 + ew + sw)

/-- 30_encoding.md R50: the length of the word follows from the widths alone; the smallest word has 3 bits, the largest
`N_MAX`, and both are words of legal widths. -/
def Obligations.WordLengthFollowsTheWidths : Prop :=
  (∀ (p : Params) (fmt : Format) (bits : Nat), p.legal fmt = true →
    fmt.wordBits = 1 + fmt.ew + fmt.sw ∧ fmt.word bits = bits % 2 ^ fmt.wordBits ∧ 3 ≤ fmt.wordBits ∧
    within p.nMax fmt.wordBits = true) ∧
  (∀ ewMax swMax inW : Nat, (Params.bounded ewMax swMax inW).wf = true →
    (Params.bounded ewMax swMax inW).legal ⟨1, 1⟩ = true ∧ (Format.mk 1 1).wordBits = 3 ∧
    (Params.bounded ewMax swMax inW).legal ⟨ewMax, swMax⟩ = true ∧
    (Params.bounded ewMax swMax inW).nMax = some (Format.mk ewMax swMax).wordBits)

/-- 30_encoding.md R51: where each field's bits stand in the pattern. -/
def Obligations.FieldsAreTheBitsOfThePattern : Prop :=
  ∀ (fmt : Format) (bits j : Nat), 1 ≤ fmt.ew → 1 ≤ fmt.sw →
    (fmt.sign (fmt.word bits)).getLsbD 0 = bits.testBit (fmt.sw + fmt.ew) ∧
    (j < fmt.ew → (fmt.expField (fmt.word bits)).testBit j = bits.testBit (fmt.sw + j)) ∧
    (j < fmt.sw → (fmt.sigField (fmt.word bits)).testBit j = bits.testBit j) ∧
    fmt.expField (fmt.word bits) ≤ 2 ^ fmt.ew - 1 ∧ fmt.sigField (fmt.word bits) ≤ 2 ^ fmt.sw - 1

/-- 30_encoding.md R56: the rows' match and mask conditions select the class that the ordered cases select, and that is
the class whose condition on `(e, f)` holds; the sign bit selects none; the binary32 masks and match. -/
def Obligations.MatchAndMaskSelectTheClass : Prop :=
  (∀ (fmt : Format) (w : Nat) (c : WordClass), 1 ≤ fmt.ew → 1 ≤ fmt.sw → w < 2 ^ (1 + fmt.ew + fmt.sw) →
    (fmt.rowMatches w c = true ↔ classify fmt (fmt.expField w) (fmt.sigField w) = c) ∧
    (classify fmt (fmt.expField w) (fmt.sigField w) = c ↔
      match c with
      | .infinity => fmt.expField w = 2 ^ fmt.ew - 1 ∧ fmt.sigField w = 0
      | .nan => fmt.expField w = 2 ^ fmt.ew - 1 ∧ fmt.sigField w ≠ 0
      | .zero => fmt.expField w = 0 ∧ fmt.sigField w = 0
      | .subnormal => fmt.expField w = 0 ∧ fmt.sigField w ≠ 0
      | .normal => 0 < fmt.expField w ∧ fmt.expField w < 2 ^ fmt.ew - 1)) ∧
  (∀ (fmt : Format) (w : Nat), 1 ≤ fmt.ew → 1 ≤ fmt.sw → w < 2 ^ (fmt.ew + fmt.sw) →
    fmt.classOf (w + 2 ^ (fmt.ew + fmt.sw)) = fmt.classOf w) ∧
  Format.binary32.magMask = 0x7FFFFFFF ∧ Format.binary32.expMask = 0x7F800000 ∧
  2 ^ Format.binary32.sw - 1 = 0x007FFFFF

/-- 30_encoding.md R57: every word is in exactly one class, and how many words each class holds. -/
def Obligations.ClassesPartitionTheWords : Prop :=
  ∀ fmt : Format, 1 ≤ fmt.ew → 1 ≤ fmt.sw →
    (∀ w < 2 ^ fmt.wordBits, ∃! c, fmt.rowMatches w c = true) ∧
    (fmt.ew = 1 → ∀ w < 2 ^ fmt.wordBits, fmt.rowMatches w .normal = false) ∧
    (2 ≤ fmt.ew → ∀ c, ∃ w < 2 ^ fmt.wordBits, fmt.rowMatches w c = true) ∧
    ((Finset.range (2 ^ fmt.wordBits)).filter (fun w => fmt.rowMatches w .infinity = true)).card = 2 ∧
    ((Finset.range (2 ^ fmt.wordBits)).filter (fun w => fmt.rowMatches w .zero = true)).card = 2 ∧
    ((Finset.range (2 ^ fmt.wordBits)).filter (fun w => fmt.rowMatches w .nan = true)).card = 2 * (2 ^ fmt.sw - 1) ∧
    ((Finset.range (2 ^ fmt.wordBits)).filter (fun w => fmt.rowMatches w .subnormal = true)).card
      = 2 * (2 ^ fmt.sw - 1) ∧
    ((Finset.range (2 ^ fmt.wordBits)).filter (fun w => fmt.rowMatches w .normal = true)).card
      = 2 * (2 ^ fmt.ew - 2) * 2 ^ fmt.sw

/-- An instruction presented as its own operation, to a block whose ports can carry it, is the instruction that runs. -/
def Obligations.PresentedInstructionRuns : Prop :=
  ∀ (s : State) (i : Instr) (rest : List CallerAction),
    s.config.tied = none → s.pending = i.operation :: rest → i.wellFormed s.config.params = true →
    fitsUnsigned s.config.params.inW i.encode = true →
    step s = exec i s.present ∧ s.present.pending = rest

/-! ## The whole operation -/

/-- 40_decode.md R70: a held operation's step drives the outputs, and carries the result, that the pseudocode gives for
the values on the input ports, and writes nothing but its outputs (and the free draws it uses); no port wraps. That the
step also takes the caller's move off its list is the model's own (log 3), no part of R70. -/
def Obligations.StepComputesThePseudocode : Prop :=
  ∀ s : State, s.Held → ∃ t, step s = .next t ∧
    t.result = some (decodePseudocode s.config.params s.present.inputs.bitsIn s.nextFormat.ew s.nextFormat.sw).1 ∧
    definedPorts t.outputs
      = (decodePseudocode s.config.params s.present.inputs.bitsIn s.nextFormat.ew s.nextFormat.sw).2 ∧
    t.config = s.config ∧ t.inputs = s.present.inputs ∧ t.pending = s.pending.tail

/-- 00_scope.md R8, 30_encoding.md R53: on legal widths a bounded block computes the source's arbitrary-precision
decoder (the pseudocode without maxima) on the pattern its input port carries, and so on the whole pattern where the
port is at least as wide as the word; the bits of the word above a short port are 0. -/
def Obligations.BoundedBlockComputesSourceDecoder : Prop :=
  ∀ (s : State) (ewMax swMax inW bits ew sw : Nat) (rest : List CallerAction),
    s.config = ⟨.bounded ewMax swMax inW, none⟩ → s.pending = .decode bits ew sw :: rest →
    s.config.params.legal ⟨ew, sw⟩ = true →
    (∃ t, step s = .next t ∧ t.result = some (decodePseudocode .unbounded (bits % 2 ^ inW) ew sw).1 ∧
      definedPorts t.outputs = (decodePseudocode .unbounded (bits % 2 ^ inW) ew sw).2) ∧
    (1 + ew + sw ≤ inW →
      decodePseudocode .unbounded (bits % 2 ^ inW) ew sw = decodePseudocode .unbounded bits ew sw) ∧
    (∀ j, inW ≤ j → s.nextWord.testBit j = false)

/-- 40_decode.md R91, R72: the defined outputs and the result are a function of `(bits mod 2^N, ew, sw)` alone: two
states that agree on these agree on those, whatever else they hold. -/
def Obligations.DefinedOutputsDependOnOperationAlone : Prop :=
  ∀ s s' : State, s.config.params = s'.config.params → s.Held → s'.Held → s.nextFormat = s'.nextFormat →
    s.nextWord = s'.nextWord →
    ∃ t t', step s = .next t ∧ step s' = .next t' ∧ definedPorts t.outputs = definedPorts t'.outputs ∧
      t.result = t'.result

/-- 60_exceptions.md R126, 10_state.md R27, 70_reset_and_hazards.md R141: whatever moves came before (errors, disturbed samplings, other operations),
an operation gives the defined outputs that it gives as the first operation after power-up. -/
def Obligations.HistoryLeavesNoTrace : Prop :=
  ∀ (s : State) (moves : List CallerAction) (bits ew sw : Nat),
    s.pending = moves ++ [.decode bits ew sw] →
    ∃ t u, Sys2Proof.core.run (moves.length + 1) s = .next t ∧
      step { State.powerUp s.config with pending := [.decode bits ew sw] } = .next u ∧
      definedPorts t.outputs = definedPorts u.outputs ∧ t.result = u.result

/-- 40_decode.md R92: with legal widths every pattern gives exactly one of the three kinds of result, with no error. -/
def Obligations.EveryPatternHasAResult : Prop :=
  ∀ s : State, s.Ready → ∃ t, step s = .next t ∧ t.outputs.err = 0 ∧
    ∃ sign, t.result = some (.inf sign) ∨ t.result = some (.nan sign) ∨
      ∃ m k, t.result = some (.finite sign m k)

/-- 93_implementation_defined.md section 1: no run of any length stops. -/
def Obligations.EveryRunCompletes : Prop := ∀ (k : Nat) (s : State), Completes k s

/-- 10_state.md R32: the class code on `cls`, and the condition of each; the codes 5, 6, 7 are never produced. -/
def Obligations.ClassCodeFollowsTheFields : Prop :=
  ∀ s : State, s.Ready → ∃ t, step s = .next t ∧
    (t.outputs.cls = 0 ↔ s.nextFormat.expField s.nextWord = 0 ∧ s.nextFormat.sigField s.nextWord = 0) ∧
    (t.outputs.cls = 1 ↔ s.nextFormat.expField s.nextWord = 0 ∧ s.nextFormat.sigField s.nextWord ≠ 0) ∧
    (t.outputs.cls = 2 ↔ 0 < s.nextFormat.expField s.nextWord ∧
      s.nextFormat.expField s.nextWord < 2 ^ s.nextFormat.ew - 1) ∧
    (t.outputs.cls = 3 ↔ s.nextFormat.expField s.nextWord = 2 ^ s.nextFormat.ew - 1 ∧
      s.nextFormat.sigField s.nextWord = 0) ∧
    (t.outputs.cls = 4 ↔ s.nextFormat.expField s.nextWord = 2 ^ s.nextFormat.ew - 1 ∧
      s.nextFormat.sigField s.nextWord ≠ 0) ∧
    t.outputs.cls.toNat ≤ 4

/-- 40_decode.md R84: the sign is kept apart from the magnitude in every class, for zero too. -/
def Obligations.SignIsKeptApart : Prop :=
  (∀ s : State, s.Ready → ∃ t, step s = .next t ∧
    t.outputs.signOut = s.nextFormat.sign s.nextWord ∧
    (s.nextWord = 2 ^ (s.nextFormat.ew + s.nextFormat.sw) → ∃ k, t.result = some (.finite 1 0 k))) ∧
  (∀ k, denoted (.finite 1 0 k) = .negZero ∧ denoted (.finite 0 0 k) = .posZero)

/-- 40_decode.md R83: a finite result carries `k = eu - sw` and denotes `(-1)^s * (m / 2^(sw - eu))`, exactly;
a zero mantissa denotes the zero of its sign. -/
def Obligations.FiniteResultDenotesSourceFormula : Prop :=
  ∀ s : State, s.Ready → ∃ t, step s = .next t ∧
    (hasMagnitude t.outputs = true →
      t.outputs.scaleOut = t.outputs.expUnbOut - s.nextFormat.sw ∧
      t.result = some (.finite t.outputs.signOut t.outputs.mantOut t.outputs.scaleOut) ∧
      (t.outputs.mantOut ≠ 0 →
        denoted (.finite t.outputs.signOut t.outputs.mantOut t.outputs.scaleOut) =
          .rational ((-1) ^ t.outputs.signOut.toNat *
            ((t.outputs.mantOut : Rat) / (2 : Rat) ^ ((s.nextFormat.sw : Int) - t.outputs.expUnbOut)))) ∧
      (t.outputs.mantOut = 0 →
        denoted (.finite t.outputs.signOut t.outputs.mantOut t.outputs.scaleOut) =
          (if t.outputs.signOut = 0 then .posZero else .negZero)))

/-- 40_decode.md R89: the ranges of the outputs, and that each range fits its port. -/
def Obligations.OutputsStayInTheirRanges : Prop :=
  (∀ s : State, s.Ready → ∃ t, step s = .next t ∧
    t.outputs.expFieldOut ≤ 2 ^ s.nextFormat.ew - 1 ∧ t.outputs.sigFieldOut ≤ 2 ^ s.nextFormat.sw - 1 ∧
    (hasMagnitude t.outputs = true →
      t.outputs.mantOut ≤ 2 ^ (s.nextFormat.sw + 1) - 1 ∧
      1 - bias s.nextFormat ≤ t.outputs.expUnbOut ∧ t.outputs.expUnbOut ≤ max 1 (bias s.nextFormat) ∧
      1 - bias s.nextFormat - s.nextFormat.sw ≤ t.outputs.scaleOut ∧
      t.outputs.scaleOut ≤ max 1 (bias s.nextFormat) - s.nextFormat.sw)) ∧
  (∀ (p : Params) (fmt : Format), p.legal fmt = true →
    (∀ e, e ≤ 2 ^ fmt.ew - 1 → fitsUnsigned p.ewMax e = true) ∧
    (∀ f, f ≤ 2 ^ fmt.sw - 1 → fitsUnsigned p.swMax f = true) ∧
    (∀ m, m ≤ 2 ^ (fmt.sw + 1) - 1 → fitsUnsigned p.mantW m = true) ∧
    (∀ eu, 1 - bias fmt ≤ eu → eu ≤ max 1 (bias fmt) → fitsSigned p.expuW eu = true) ∧
    (∀ k, 1 - bias fmt - fmt.sw ≤ k → k ≤ max 1 (bias fmt) - fmt.sw → fitsSigned p.scW k = true))

/-- 40_decode.md R90: of two finite words of one format and one sign, the larger has the strictly larger magnitude. -/
def Obligations.MagnitudeGrowsWithTheWord : Prop :=
  ∀ (s s' t t' : State) (sign : Bit) (m m' : Nat) (k k' : Int),
    s.Ready → s'.Ready → s.nextFormat = s'.nextFormat → s.nextWord < s'.nextWord →
    step s = .next t → step s' = .next t' →
    t.result = some (.finite sign m k) → t'.result = some (.finite sign m' k') →
    magnitude m k < magnitude m' k'

/-- 40_decode.md R87: with `ew = 1` no word is NORMAL; `e = 1` is an infinity or a NaN, `e = 0` is
`Finite(s, f, 1 - sw)` with unbiased exponent 1. -/
def Obligations.OneExponentBitHasNoNormals : Prop :=
  ∀ s : State, s.Ready → s.nextFormat.ew = 1 → ∃ t, step s = .next t ∧
    t.outputs.cls ≠ 2 ∧ bias s.nextFormat = 0 ∧
    (s.nextFormat.expField s.nextWord = 0 →
      t.result = some (.finite (s.nextFormat.sign s.nextWord) (s.nextFormat.sigField s.nextWord)
        (1 - s.nextFormat.sw)) ∧ t.outputs.expUnbOut = 1) ∧
    (s.nextFormat.expField s.nextWord ≠ 0 → s.nextFormat.sigField s.nextWord = 0 →
      t.result = some (.inf (s.nextFormat.sign s.nextWord))) ∧
    (s.nextFormat.expField s.nextWord ≠ 0 → s.nextFormat.sigField s.nextWord ≠ 0 →
      t.result = some (.nan (s.nextFormat.sign s.nextWord)))

/-- 40_decode.md R88: with `sw = 1` NORMAL mantissas are 2 or 3, the only SUBNORMAL mantissa is 1, and so is the only
NaN significand. -/
def Obligations.OneSignificandBitMantissas : Prop :=
  ∀ s : State, s.Ready → s.nextFormat.sw = 1 → ∃ t, step s = .next t ∧
    (t.outputs.cls = 2 → t.outputs.mantOut = 2 ∨ t.outputs.mantOut = 3) ∧
    (t.outputs.cls = 1 → t.outputs.mantOut = 1) ∧
    (t.outputs.cls = 4 → t.outputs.sigFieldOut = 1)

/-- 40_decode.md R85: the largest finite value of a format, that no finite result exceeds it, and which NORMAL words
have a scale that is not negative. -/
def Obligations.LargestFiniteValue : Prop :=
  ∀ s : State, s.Ready → ∃ t, step s = .next t ∧
    (2 ≤ s.nextFormat.ew → s.nextFormat.expField s.nextWord = 2 ^ s.nextFormat.ew - 2 →
      s.nextFormat.sigField s.nextWord = 2 ^ s.nextFormat.sw - 1 →
      t.result = some (.finite (s.nextFormat.sign s.nextWord) (2 ^ (s.nextFormat.sw + 1) - 1)
        (bias s.nextFormat - s.nextFormat.sw))) ∧
    (2 ≤ s.nextFormat.ew → ∀ sign m k, t.result = some (.finite sign m k) →
      magnitude m k ≤ magnitude (2 ^ (s.nextFormat.sw + 1) - 1) (bias s.nextFormat - s.nextFormat.sw)) ∧
    (t.outputs.cls = 2 →
      (0 ≤ t.outputs.scaleOut ↔ bias s.nextFormat + s.nextFormat.sw ≤ s.nextFormat.expField s.nextWord))

/-- 00_scope.md R9: in a fixed-format instance whose tied widths are legal, `err` is constant 0: at power-up and after
every step, whether the inputs are held or not. That R9 decides `err` while they are not, and not R141, is the model's
choice (log 20). -/
def Obligations.FixedFormatNeverErrs : Prop :=
  (∀ (c : BlockConfig) (fmt : Format), c.tied = some fmt → c.params.legal fmt = true →
    (State.powerUp c).outputs.err = 0) ∧
  (∀ (s : State) (fmt : Format), s.Inv → s.config.tied = some fmt → s.config.params.legal fmt = true →
    s.nextFormat = fmt ∧ ∃ t, step s = .next t ∧ t.outputs.err = 0)

/-! ## Invariants -/

/-- The ports stay in range: every step keeps the invariant of the ports, from every state that meets it.
Part of it is that `err` is 0 in a fixed-format instance with legal tied widths (00_scope.md R9, log 20). -/
def Obligations.StepKeepsPortInvariant : Prop := ∀ s t : State, s.Inv → step s = .next t → t.Inv

/-- The invariant of the ports holds at power-up of every well-formed instance, and so after reset. -/
def Obligations.PowerUpMeetsPortInvariant : Prop :=
  (∀ c : BlockConfig, c.wf = true → (State.powerUp c).Inv) ∧ State.reset.Inv

/-! ## The value and its rendering -/

/-- 41_render.md R111: `render64` is exact, with its sign, where the value is representable in binary64; it renders
infinities and NaNs with their sign; elsewhere it is the open function of `(s, m, k)`. What a binary64 word means is
what the decoder itself gives for the widths `(11, 52)`. The layout and the condition of R112 are general knowledge (log
15); the open function `Config.renderOpen` and the open NaN payload are the model's form of what R111 leaves OPEN (log
11). -/
def Obligations.RenderingMeetsItsConstraints : Prop :=
  (∀ (s : Bit) (m : Nat) (k : Int), representable64 m k = true →
    ∃ b, render64 (.finite s m k) = some b ∧
      ∃ m' k', (decodePseudocode .unbounded b.toNat 11 52).1 = .finite s m' k' ∧ magnitude m' k' = magnitude m k) ∧
  (∀ s : Bit, ∃ b, render64 (.inf s) = some b ∧ (decodePseudocode .unbounded b.toNat 11 52).1 = .inf s) ∧
  (∀ s : Bit, ∃ b, render64 (.nan s) = some b ∧ (decodePseudocode .unbounded b.toNat 11 52).1 = .nan s) ∧
  (∀ (s : Bit) (m : Nat) (k : Int), representable64 m k = false →
    render64 (.finite s m k) = some (Config.renderOpen s m k))

/-- 41_render.md R112: a value is representable in binary64 exactly when some binary64 word has it. The layout and the
condition are general knowledge (log 15). -/
def Obligations.RepresentableMeansSomeWordHasIt : Prop :=
  ∀ (s : Bit) (m : Nat) (k : Int),
    representable64 m k = true ↔
      ∃ (b : BitVec 64) (m' : Nat) (k' : Int),
        (decodePseudocode .unbounded b.toNat 11 52).1 = .finite s m' k' ∧ magnitude m' k' = magnitude m k

/-- 41_render.md R112: every finite result of the three reference formats is representable in binary64 (its layout and the
condition are general knowledge, log 15). -/
def Obligations.ReferenceFormatsAreRepresentable : Prop :=
  ∀ (p : Params) (bits : Nat) (fmt : Format) (s : Bit) (m : Nat) (k : Int),
    fmt = .binary16 ∨ fmt = .binary32 ∨ fmt = .binary64 →
    (decodePseudocode p bits fmt.ew fmt.sw).1 = .finite s m k → representable64 m k = true

/-- 41_render.md R112: a binary64 word decoded by the block and rendered again is that word, a NaN apart, of which only
the sign is kept. The layout is general knowledge (log 15), the payload of the rendered NaN is open (log 11). -/
def Obligations.Binary64WordsRenderAsThemselves : Prop :=
  ∀ b : BitVec 64,
    (Format.binary64.classOf b.toNat ≠ .nan →
      render64 (decodePseudocode .unbounded b.toNat 11 52).1 = some b) ∧
    (Format.binary64.classOf b.toNat = .nan →
      ∃ b', render64 (decodePseudocode .unbounded b.toNat 11 52).1 = some b' ∧
        Format.binary64.classOf b'.toNat = .nan ∧
        Format.binary64.sign b'.toNat = Format.binary64.sign b.toNat)

/-- 41_render.md R111: the rounding that the spec recommends (and does not require) gives the exact rendering where the
value is representable (the rounding is in the model apart from `render64`, log 11; the condition is general knowledge,
log 15). -/
def Obligations.RecommendedRoundingIsExactWhereItCan : Prop :=
  ∀ (s : Bit) (m : Nat) (k : Int), representable64 m k = true →
    render64 (.finite s m k) = some (roundNearestEven64 s m k)
end

