-- ==== Sys2Proof/Laws/Decode.lean ====
section
/-! SUPPORT. Field extraction undoes packing, packing undoes extraction, and the conditions of the classifier. -/

namespace Sys2Proof

variable (fmt : Format)

@[simp] theorem format_decodeInfinity (s : Bit) : (Instr.decodeInfinity fmt s).format = fmt := rfl
@[simp] theorem format_decodeNan (s : Bit) (f : Nat) : (Instr.decodeNan fmt s f).format = fmt := rfl
@[simp] theorem format_decodeZero (s : Bit) : (Instr.decodeZero fmt s).format = fmt := rfl
@[simp] theorem format_decodeSubnormal (s : Bit) (f : Nat) : (Instr.decodeSubnormal fmt s f).format = fmt := rfl
@[simp] theorem format_decodeNormal (s : Bit) (e f : Nat) : (Instr.decodeNormal fmt s e f).format = fmt := rfl

/-- The biased exponent lies in `[0, 2^ew - 1]` (40_decode.md R74). -/
theorem expField_lt (he : 1 ≤ fmt.ew) (w : Nat) : fmt.expField w < 2 ^ fmt.ew := by
  have h : fmt.ew + fmt.sw - 1 - fmt.sw + 1 = fmt.ew := by omega
  simp only [Format.expField, slice, h]
  exact Nat.mod_lt _ (Nat.two_pow_pos _)

/-- The significand lies in `[0, 2^sw - 1]` (40_decode.md R75). -/
theorem sigField_lt (hs : 1 ≤ fmt.sw) (w : Nat) : fmt.sigField w < 2 ^ fmt.sw := by
  have h : fmt.sw - 1 - 0 + 1 = fmt.sw := by omega
  simp only [Format.sigField, slice, h]
  exact Nat.mod_lt _ (Nat.two_pow_pos _)

/-- The word has `N` bits (30_encoding.md R52). -/
theorem word_lt (bits : Nat) : fmt.word bits < 2 ^ fmt.wordBits := Nat.mod_lt _ (Nat.two_pow_pos _)

/-- The exponent field in plain arithmetic. -/
theorem expField_eq (he : 1 ≤ fmt.ew) (w : Nat) : fmt.expField w = w / 2 ^ fmt.sw % 2 ^ fmt.ew := by
  have h : fmt.ew + fmt.sw - 1 - fmt.sw + 1 = fmt.ew := by omega
  simp only [Format.expField, slice, h]

/-- The significand field in plain arithmetic. -/
theorem sigField_eq (hs : 1 ≤ fmt.sw) (w : Nat) : fmt.sigField w = w % 2 ^ fmt.sw := by
  have h : fmt.sw - 1 - 0 + 1 = fmt.sw := by omega
  simp only [Format.sigField, slice, h, Nat.pow_zero, Nat.div_one]

/-- The sign bit in plain arithmetic. -/
theorem sign_toNat (w : Nat) : (fmt.sign w).toNat = w / 2 ^ (fmt.ew + fmt.sw) % 2 := by
  simp [Format.sign, bitAt]

/-- A packed word has `N` bits. -/
theorem pack_lt {s : Bit} {e f : Nat} (he : e < 2 ^ fmt.ew) (hf : f < 2 ^ fmt.sw) :
    fmt.pack s e f < 2 ^ fmt.wordBits := by
  have hs : s.toNat < 2 := s.isLt
  have h1 : 2 ^ fmt.wordBits = 2 * (2 ^ fmt.ew * 2 ^ fmt.sw) := by
    simp only [Format.wordBits, Nat.pow_add, Nat.pow_one, Nat.mul_assoc]
  rw [h1]
  simp only [Format.pack, Nat.pow_add]
  nlinarith [Nat.mul_le_mul_right (2 ^ fmt.sw) (Nat.succ_le_of_lt he),
    Nat.mul_le_mul_right (2 ^ fmt.ew * 2 ^ fmt.sw) (Nat.le_of_lt_succ hs)]

/-- The word of packed fields, below the sign. -/
theorem pack_low_lt {e f : Nat} (he : e < 2 ^ fmt.ew) (hf : f < 2 ^ fmt.sw) :
    e * 2 ^ fmt.sw + f < 2 ^ (fmt.ew + fmt.sw) := by
  rw [Nat.pow_add]
  nlinarith [Nat.mul_le_mul_right (2 ^ fmt.sw) (Nat.succ_le_of_lt he)]

/-- Extracting the sign undoes packing. -/
theorem sign_pack (s : Bit) {e f : Nat} (he : e < 2 ^ fmt.ew) (hf : f < 2 ^ fmt.sw) :
    fmt.sign (fmt.pack s e f) = s := by
  apply BitVec.eq_of_toNat_eq
  have hs : s.toNat < 2 := s.isLt
  rw [sign_toNat, Format.pack, Nat.add_assoc, Nat.mul_comm s.toNat, Nat.mul_add_div (Nat.two_pow_pos _),
    Nat.div_eq_of_lt (pack_low_lt fmt he hf), Nat.add_zero, Nat.mod_eq_of_lt hs]

/-- Extracting the exponent undoes packing. -/
theorem expField_pack (hew : 1 ≤ fmt.ew) (s : Bit) {e f : Nat} (he : e < 2 ^ fmt.ew) (hf : f < 2 ^ fmt.sw) :
    fmt.expField (fmt.pack s e f) = e := by
  have h : fmt.pack s e f = 2 ^ fmt.sw * (s.toNat * 2 ^ fmt.ew + e) + f := by
    simp only [Format.pack, Nat.pow_add]; ring
  rw [expField_eq fmt hew, h, Nat.mul_add_div (Nat.two_pow_pos _), Nat.div_eq_of_lt hf, Nat.add_zero,
    Nat.mul_add_mod_self_right, Nat.mod_eq_of_lt he]

/-- Extracting the significand undoes packing. -/
theorem sigField_pack (hsw : 1 ≤ fmt.sw) (s : Bit) {e f : Nat} (hf : f < 2 ^ fmt.sw) :
    fmt.sigField (fmt.pack s e f) = f := by
  have h : fmt.pack s e f = (s.toNat * 2 ^ fmt.ew + e) * 2 ^ fmt.sw + f := by
    simp only [Format.pack, Nat.pow_add]; ring
  rw [sigField_eq fmt hsw, h, Nat.mul_add_mod_self_right, Nat.mod_eq_of_lt hf]

/-- A packed word is its own word. -/
theorem word_pack {s : Bit} {e f : Nat} (he : e < 2 ^ fmt.ew) (hf : f < 2 ^ fmt.sw) :
    fmt.word (fmt.pack s e f) = fmt.pack s e f := Nat.mod_eq_of_lt (pack_lt fmt he hf)

/-- Packing the fields of a word gives the word back. -/
theorem pack_fields (hew : 1 ≤ fmt.ew) (hsw : 1 ≤ fmt.sw) {w : Nat} (hw : w < 2 ^ fmt.wordBits) :
    fmt.pack (fmt.sign w) (fmt.expField w) (fmt.sigField w) = w := by
  rw [Format.pack, sign_toNat, expField_eq fmt hew, sigField_eq fmt hsw]
  have h1 : w / 2 ^ (fmt.ew + fmt.sw) < 2 := by
    apply Nat.div_lt_of_lt_mul
    calc w < 2 ^ fmt.wordBits := hw
      _ = 2 ^ (fmt.ew + fmt.sw) * 2 := by
        simp only [Format.wordBits, Nat.pow_add, Nat.pow_one]; ring
  rw [Nat.mod_eq_of_lt h1, Nat.add_comm fmt.ew fmt.sw, Nat.pow_add, ← Nat.div_div_eq_div_mul]
  have h2 := Nat.div_add_mod (w / 2 ^ fmt.sw) (2 ^ fmt.ew)
  have h3 := Nat.div_add_mod w (2 ^ fmt.sw)
  generalize w / 2 ^ fmt.sw / 2 ^ fmt.ew = a at *
  generalize w / 2 ^ fmt.sw % 2 ^ fmt.ew = b at *
  calc a * (2 ^ fmt.sw * 2 ^ fmt.ew) + b * 2 ^ fmt.sw + w % 2 ^ fmt.sw
      = 2 ^ fmt.sw * (2 ^ fmt.ew * a + b) + w % 2 ^ fmt.sw := by ring
    _ = w := by rw [h2, h3]

/-- What `legal` says (40_decode.md R71). -/
theorem legal_iff (p : Params) :
    p.legal fmt = true ↔
      1 ≤ fmt.ew ∧ 1 ≤ fmt.sw ∧ within p.ewMax fmt.ew = true ∧ within p.swMax fmt.sw = true := by
  simp [Params.legal, and_assoc]

/-- The all-ones exponent is not 0 (so an all-ones word is neither ZERO nor SUBNORMAL). -/
theorem allOnes_pos (hew : 1 ≤ fmt.ew) : 0 < fmt.allOnes := by
  have h : 2 ^ 1 ≤ 2 ^ fmt.ew := Nat.pow_le_pow_right (by decide) hew
  simp only [Format.allOnes]
  omega

/-- Classification of an all-ones exponent with zero significand. -/
theorem classify_infinity : classify fmt fmt.allOnes 0 = .infinity := by simp [classify]

/-- Classification of an all-ones exponent with nonzero significand. -/
theorem classify_nan {f : Nat} (hf : f ≠ 0) : classify fmt fmt.allOnes f = .nan := by simp [classify, hf]

/-- Classification of a zero exponent with zero significand. -/
theorem classify_zero (hew : 1 ≤ fmt.ew) : classify fmt 0 0 = .zero := by
  have := allOnes_pos fmt hew
  simp [classify, this.ne]

/-- Classification of a zero exponent with nonzero significand. -/
theorem classify_subnormal (hew : 1 ≤ fmt.ew) {f : Nat} (hf : f ≠ 0) : classify fmt 0 f = .subnormal := by
  have := allOnes_pos fmt hew
  simp [classify, this.ne, hf]

/-- Classification of an exponent that is neither 0 nor all ones. -/
theorem classify_normal {e : Nat} (f : Nat) (h0 : 0 < e) (h1 : e < fmt.allOnes) :
    classify fmt e f = .normal := by
  simp [classify, h0.ne', h1.ne]

/-- What the decoder answers for legal widths. -/
theorem decodeWord_of_legal {p : Params} {bits ew sw : Nat} (h : p.legal ⟨ew, sw⟩ = true) :
    decodeWord p bits ew sw =
      .ok (instrOfFields ⟨ew, sw⟩ (Format.sign ⟨ew, sw⟩ (Format.word ⟨ew, sw⟩ bits))
        (Format.expField ⟨ew, sw⟩ (Format.word ⟨ew, sw⟩ bits))
        (Format.sigField ⟨ew, sw⟩ (Format.word ⟨ew, sw⟩ bits))) := by
  simp [decodeWord, h]

/-- What the decoder answers for illegal widths. -/
theorem decodeWord_of_illegal {p : Params} {bits ew sw : Nat} (h : p.legal ⟨ew, sw⟩ = false) :
    decodeWord p bits ew sw = .error .invalidParameter := by
  simp [decodeWord, h]

end Sys2Proof
end

