-- ==== Sys2Proof/Laws/Ports.lean ====
section
/-! SUPPORT. What driving a port does: the port carries a value of its width, and a value that fits is carried
unchanged; the same for the values drawn for `ANY`. -/

namespace Sys2Proof

/-- A number is below 2 to its bit length. -/
theorem lt_two_pow_bitlen (n : Nat) : n < 2 ^ bitlen n := by
  unfold bitlen
  split
  · simp [*]
  · exact Nat.lt_log2_self

/-- A nonzero number is at least 2 to one less than its bit length. -/
theorem two_pow_le_of_bitlen {n : Nat} (h : n ≠ 0) : 2 ^ (bitlen n - 1) ≤ n := by
  unfold bitlen
  rw [if_neg h]
  exact Nat.log2_self_le h

@[simp] theorem fitsUnsigned_none (v : Nat) : fitsUnsigned none v = true := rfl
@[simp] theorem fitsUnsigned_some (w v : Nat) : fitsUnsigned (some w) v = true ↔ v < 2 ^ w := by
  simp [fitsUnsigned]
@[simp] theorem fitsSigned_none (v : Int) : fitsSigned none v = true := rfl
theorem fitsSigned_some (w : Nat) (v : Int) :
    fitsSigned (some w) v = true ↔ -(2 ^ w : Int) ≤ 2 * v ∧ 2 * v < (2 ^ w : Int) := by
  simp [fitsSigned]

/-- A port carries a value of its width. -/
theorem driveUnsigned_fits (w : Option Nat) (v : Nat) : fitsUnsigned w (driveUnsigned w v) = true := by
  cases w with
  | none => rfl
  | some w => exact (fitsUnsigned_some w _).2 (Nat.mod_lt _ (Nat.two_pow_pos w))

/-- A port carries a value that fits it unchanged. -/
theorem driveUnsigned_of_fits {w : Option Nat} {v : Nat} (h : fitsUnsigned w v = true) :
    driveUnsigned w v = v := by
  cases w with
  | none => rfl
  | some w => exact Nat.mod_eq_of_lt ((fitsUnsigned_some w v).1 h)

/-- A signed port carries a value of its width. -/
theorem driveSigned_fits (w : Option Nat) (v : Int) : fitsSigned w (driveSigned w v) = true := by
  cases w with
  | none => rfl
  | some w =>
    have hpos : 0 < 2 ^ w := Nat.two_pow_pos w
    have h1 := Int.le_bmod (x := v) (m := 2 ^ w) hpos
    have h2 := Int.bmod_lt (x := v) (m := 2 ^ w) hpos
    rw [fitsSigned_some]
    simp only [driveSigned]
    push_cast at h1 h2
    generalize Int.bmod v (2 ^ w) = x at *
    generalize (2 : Int) ^ w = y at *
    omega

/-- A signed port carries a value that fits it unchanged. -/
theorem driveSigned_of_fits {w : Option Nat} {v : Int} (h : fitsSigned w v = true) : driveSigned w v = v := by
  cases w with
  | none => rfl
  | some w =>
    obtain ⟨h1, h2⟩ := (fitsSigned_some w v).1 h
    refine Int.bmod_eq_of_le_mul_two ?_ ?_
    · push_cast; omega
    · push_cast; omega

/-- A value that fits a port fits every wider one. -/
theorem fitsUnsigned_mono {w w' v : Nat} (h : v < 2 ^ w) (hw : w ≤ w') : v < 2 ^ w' :=
  lt_of_lt_of_le h (Nat.pow_le_pow_right (by decide) hw)

/-- Every output port that carries `ANY` carries a value of its width. -/
theorem any_inRange (p : Params) (n : Nat) : (Outputs.any p n).inRange p = true := by
  simp [Outputs.inRange, Outputs.any, anyUnsigned, anySigned, driveUnsigned_fits, driveSigned_fits]

/-- So does every output port of a sampling of inputs that are not held. -/
theorem unsettled_inRange (c : BlockConfig) (n : Nat) : (Outputs.unsettled c n).inRange c.params = true :=
  any_inRange c.params n

/-- Where the tied widths are not legal, or nothing is tied, such a sampling gives `ANY` on every port. -/
theorem unsettled_of_mayErr {c : BlockConfig} (h : c.neverErrs = false) (n : Nat) :
    Outputs.unsettled c n = Outputs.any c.params n := by simp [Outputs.unsettled, h]

/-- With legal tied widths it gives `err = 0` and `ANY` on every other port. -/
theorem unsettled_of_neverErrs {c : BlockConfig} (h : c.neverErrs = true) (n : Nat) :
    Outputs.unsettled c n = { Outputs.any c.params n with err := 0 } := by simp [Outputs.unsettled, h]

/-- What makes `err` constant: the width ports are tied to legal widths. -/
theorem neverErrs_iff (c : BlockConfig) :
    c.neverErrs = true ↔ ∃ fmt, c.tied = some fmt ∧ c.params.legal fmt = true := by
  simp [BlockConfig.neverErrs, Option.any_eq_true_iff_get, Option.eq_some_iff_get_eq]

end Sys2Proof
end

