-- ==== Sys2Proof/Laws/State.lean ====
section
/-! SUPPORT. One lemma per field per update of `State`, and the fields of the input and output records that the
operations write. -/

namespace Sys2Proof.Machine

variable (s : State)

/-! Sampling unsettled inputs. -/
@[simp] theorem sampleUnsettled_config : s.sampleUnsettled.config = s.config := rfl
@[simp] theorem sampleUnsettled_inputs : s.sampleUnsettled.inputs = s.inputs := rfl
@[simp] theorem sampleUnsettled_pending : s.sampleUnsettled.pending = s.pending := rfl
@[simp] theorem sampleUnsettled_draws : s.sampleUnsettled.draws = s.draws + 1 := rfl
@[simp] theorem sampleUnsettled_outputs :
    s.sampleUnsettled.outputs = Outputs.unsettled s.config s.draws := rfl

/-! The error. -/
@[simp] theorem raiseInvalidParameter_config : s.raiseInvalidParameter.config = s.config := rfl
@[simp] theorem raiseInvalidParameter_inputs : s.raiseInvalidParameter.inputs = s.inputs := rfl
@[simp] theorem raiseInvalidParameter_pending : s.raiseInvalidParameter.pending = s.pending := rfl
@[simp] theorem raiseInvalidParameter_draws : s.raiseInvalidParameter.draws = s.draws + 1 := rfl
@[simp] theorem raiseInvalidParameter_err : s.raiseInvalidParameter.outputs.err = 1 := rfl

/-! Driving a class without a magnitude. -/
section special
variable (c : WordClass) (sign : Bit) (e f : Nat)
@[simp] theorem driveSpecial_config : (s.driveSpecial c sign e f).config = s.config := rfl
@[simp] theorem driveSpecial_inputs : (s.driveSpecial c sign e f).inputs = s.inputs := rfl
@[simp] theorem driveSpecial_pending : (s.driveSpecial c sign e f).pending = s.pending := rfl
@[simp] theorem driveSpecial_draws : (s.driveSpecial c sign e f).draws = s.draws + 1 := rfl
@[simp] theorem driveSpecial_err : (s.driveSpecial c sign e f).outputs.err = 0 := rfl
@[simp] theorem driveSpecial_cls : (s.driveSpecial c sign e f).outputs.cls = c.code := rfl
@[simp] theorem driveSpecial_signOut : (s.driveSpecial c sign e f).outputs.signOut = sign := rfl
@[simp] theorem driveSpecial_expFieldOut :
    (s.driveSpecial c sign e f).outputs.expFieldOut = driveUnsigned s.config.params.ewMax e := rfl
@[simp] theorem driveSpecial_sigFieldOut :
    (s.driveSpecial c sign e f).outputs.sigFieldOut = driveUnsigned s.config.params.swMax f := rfl
end special

/-! Driving a class with a magnitude. -/
section finite
variable (fmt : Format) (c : WordClass) (sign : Bit) (e f : Nat) (eu : Int) (m : Nat)
@[simp] theorem driveFinite_config : (s.driveFinite fmt c sign e f eu m).config = s.config := rfl
@[simp] theorem driveFinite_inputs : (s.driveFinite fmt c sign e f eu m).inputs = s.inputs := rfl
@[simp] theorem driveFinite_pending : (s.driveFinite fmt c sign e f eu m).pending = s.pending := rfl
@[simp] theorem driveFinite_draws : (s.driveFinite fmt c sign e f eu m).draws = s.draws := rfl
@[simp] theorem driveFinite_err : (s.driveFinite fmt c sign e f eu m).outputs.err = 0 := rfl
@[simp] theorem driveFinite_cls : (s.driveFinite fmt c sign e f eu m).outputs.cls = c.code := rfl
@[simp] theorem driveFinite_signOut : (s.driveFinite fmt c sign e f eu m).outputs.signOut = sign := rfl
@[simp] theorem driveFinite_expFieldOut :
    (s.driveFinite fmt c sign e f eu m).outputs.expFieldOut = driveUnsigned s.config.params.ewMax e := rfl
@[simp] theorem driveFinite_sigFieldOut :
    (s.driveFinite fmt c sign e f eu m).outputs.sigFieldOut = driveUnsigned s.config.params.swMax f := rfl
@[simp] theorem driveFinite_expUnbOut :
    (s.driveFinite fmt c sign e f eu m).outputs.expUnbOut = driveSigned s.config.params.expuW eu := rfl
@[simp] theorem driveFinite_mantOut :
    (s.driveFinite fmt c sign e f eu m).outputs.mantOut = driveUnsigned s.config.params.mantW m := rfl
@[simp] theorem driveFinite_scaleOut :
    (s.driveFinite fmt c sign e f eu m).outputs.scaleOut = driveSigned s.config.params.scW (eu - fmt.sw) := rfl
end finite

/-! The caller's move. -/
section move
variable (a : CallerAction)
@[simp] theorem afterMove_config : (s.afterMove a).config = s.config := by cases a <;> rfl
@[simp] theorem afterMove_outputs : (s.afterMove a).outputs = s.outputs := by cases a <;> rfl
@[simp] theorem afterMove_pending : (s.afterMove a).pending = s.pending := by cases a <;> rfl
@[simp] theorem afterMove_draws : (s.afterMove a).draws = s.draws := by cases a <;> rfl
@[simp] theorem afterMove_decode_inputs (bits ew sw : Nat) :
    (s.afterMove (.decode bits ew sw)).inputs = s.config.drive bits ew sw := rfl
@[simp] theorem afterMove_disturb_held : (s.afterMove .disturb).inputs.held = false := rfl
@[simp] theorem afterMove_disturb_bitsIn : (s.afterMove .disturb).inputs.bitsIn = s.inputs.bitsIn := rfl
@[simp] theorem afterMove_disturb_ewIn : (s.afterMove .disturb).inputs.ewIn = s.inputs.ewIn := rfl
@[simp] theorem afterMove_disturb_swIn : (s.afterMove .disturb).inputs.swIn = s.inputs.swIn := rfl
end move

/-! What the caller drives. -/
section drive
variable (c : BlockConfig) (bits ew sw : Nat)
@[simp] theorem drive_held : (c.drive bits ew sw).held = true := rfl
@[simp] theorem drive_bitsIn : (c.drive bits ew sw).bitsIn = driveUnsigned c.params.inW bits := rfl

/-- On a block that is not tied the width ports carry the caller's widths. -/
theorem drive_untied (h : c.tied = none) :
    (c.drive bits ew sw).ewIn = ew ∧ (c.drive bits ew sw).swIn = sw := by
  simp [BlockConfig.drive, BlockConfig.widthsDriven, h]

/-- In a fixed-format instance they carry the tied constants (00_scope.md R9). -/
theorem drive_tied {fmt : Format} (h : c.tied = some fmt) :
    (c.drive bits ew sw).ewIn = fmt.ew ∧ (c.drive bits ew sw).swIn = fmt.sw := by
  simp [BlockConfig.drive, BlockConfig.widthsDriven, h]
end drive

/-- A caller with no move left leaves the state as it is. -/
theorem present_of_nil (h : s.pending = []) : s.present = s := by simp [State.present, h]

/-- A caller with a move makes it and takes it off the list. -/
theorem present_of_cons {a : CallerAction} {rest : List CallerAction} (h : s.pending = a :: rest) :
    s.present = ({ s with pending := rest } : State).afterMove a := by simp [State.present, h]

@[simp] theorem present_config : s.present.config = s.config := by
  unfold State.present; split <;> simp
@[simp] theorem present_outputs : s.present.outputs = s.outputs := by
  unfold State.present; split <;> simp
@[simp] theorem present_draws : s.present.draws = s.draws := by
  unfold State.present; split <;> simp
@[simp] theorem present_pending : s.present.pending = s.pending.tail := by
  unfold State.present; split <;> simp [*]

end Sys2Proof.Machine
end

