-- ==== Sys2Proof/Laws/Ops.lean ====
section
/-! SUPPORT. What the shared operations can do, each said once: validation, an instruction, sampling, a step. -/

namespace Sys2Proof.Machine

/-- Validation answers the state it is given where the widths are legal. -/
theorem validated_of_legal {s t : State} {fmt : Format} (h : s.config.params.legal fmt = true) :
    s.validated fmt t = .next t := by simp [State.validated, h]

/-- Validation answers the error where the widths are illegal. -/
theorem validated_of_illegal {s t : State} {fmt : Format} (h : s.config.params.legal fmt = false) :
    s.validated fmt t = .next s.raiseInvalidParameter := by simp [State.validated, h]

/-- Everything an instruction can do: with legal widths it drives the outputs of its class, else it raises the error. -/
theorem exec_cases (i : Instr) (s : State) :
    (s.config.params.legal i.format = false ∧ exec i s = .next s.raiseInvalidParameter) ∨
    (s.config.params.legal i.format = true ∧
      ((∃ c sign e f, exec i s = .next (s.driveSpecial c sign e f)) ∨
       (∃ c sign e f eu m, exec i s = .next (s.driveFinite i.format c sign e f eu m)))) := by
  cases hl : s.config.params.legal i.format
  · left
    refine ⟨rfl, ?_⟩
    cases i <;> exact validated_of_illegal hl
  · right
    refine ⟨rfl, ?_⟩
    cases i with
    | decodeInfinity fmt sign => exact .inl ⟨_, _, _, _, validated_of_legal hl⟩
    | decodeNan fmt sign f => exact .inl ⟨_, _, _, _, validated_of_legal hl⟩
    | decodeZero fmt sign => exact .inr ⟨_, _, _, _, _, _, validated_of_legal hl⟩
    | decodeSubnormal fmt sign f => exact .inr ⟨_, _, _, _, _, _, validated_of_legal hl⟩
    | decodeNormal fmt sign e f => exact .inr ⟨_, _, _, _, _, _, validated_of_legal hl⟩

/-- Everything sampling can do: unsettled inputs, illegal widths, or the instruction that the ports give. -/
theorem sample_cases (s : State) :
    (s.inputs.held = false ∧ s.sample = .next s.sampleUnsettled) ∨
    (s.inputs.held = true ∧ s.config.params.legal ⟨s.inputs.ewIn, s.inputs.swIn⟩ = false ∧
      s.sample = .next s.raiseInvalidParameter) ∨
    (s.inputs.held = true ∧ s.config.params.legal ⟨s.inputs.ewIn, s.inputs.swIn⟩ = true ∧
      ∃ i, decodeWord s.config.params s.inputs.bitsIn s.inputs.ewIn s.inputs.swIn = .ok i ∧
        s.sample = exec i s) := by
  cases hh : s.inputs.held
  · exact .inl ⟨rfl, by simp [State.sample, hh]⟩
  · cases hl : s.config.params.legal ⟨s.inputs.ewIn, s.inputs.swIn⟩
    · exact .inr (.inl ⟨rfl, rfl, by simp [State.sample, hh, decodeWord_of_illegal hl]⟩)
    · exact .inr (.inr ⟨rfl, rfl, _, decodeWord_of_legal hl, by simp [State.sample, hh, decodeWord_of_legal hl]⟩)

/-- The instruction of the fields has the format it is decoded with. -/
theorem instrOfFields_format (fmt : Format) (s : Bit) (e f : Nat) : (instrOfFields fmt s e f).format = fmt := by
  unfold instrOfFields
  split <;> rfl

end Sys2Proof.Machine
end

