-- ==== Sys2Proof/Laws/PerInstr.lean ====
section
/-! SUPPORT. Facts about every instruction as syntax, one lemma per constructor. -/

namespace Sys2Proof.Laws

/-- The encoded word of an instruction with legal widths has `N` bits (30_encoding.md R50). -/
def EncodeFits.Statement (i : Instr) : Prop :=
  ∀ p : Params, i.wellFormed p = true → i.encode < 2 ^ i.format.wordBits

theorem allOnes_lt (fmt : Format) : fmt.allOnes < 2 ^ fmt.ew := by
  have := Nat.two_pow_pos fmt.ew
  simp only [Format.allOnes]
  omega

theorem EncodeFits.decodeInfinity (fmt : Format) (s : Bit) : EncodeFits.Statement (.decodeInfinity fmt s) :=
  fun _ _ => pack_lt fmt (allOnes_lt fmt) (Nat.two_pow_pos _)

theorem EncodeFits.decodeNan (fmt : Format) (s : Bit) (f : Nat) : EncodeFits.Statement (.decodeNan fmt s f) := by
  intro p h
  have hf : f < 2 ^ fmt.sw := by simp [Instr.wellFormed, Instr.fieldsOk] at h; omega
  exact pack_lt fmt (allOnes_lt fmt) hf

theorem EncodeFits.decodeZero (fmt : Format) (s : Bit) : EncodeFits.Statement (.decodeZero fmt s) :=
  fun _ _ => pack_lt fmt (Nat.two_pow_pos _) (Nat.two_pow_pos _)

theorem EncodeFits.decodeSubnormal (fmt : Format) (s : Bit) (f : Nat) :
    EncodeFits.Statement (.decodeSubnormal fmt s f) := by
  intro p h
  have hf : f < 2 ^ fmt.sw := by simp [Instr.wellFormed, Instr.fieldsOk] at h; omega
  exact pack_lt fmt (Nat.two_pow_pos _) hf

theorem EncodeFits.decodeNormal (fmt : Format) (s : Bit) (e f : Nat) :
    EncodeFits.Statement (.decodeNormal fmt s e f) := by
  intro p h
  have hef : e < 2 ^ fmt.ew ∧ f < 2 ^ fmt.sw := by simp [Instr.wellFormed, Instr.fieldsOk] at h; omega
  exact pack_lt fmt hef.1 hef.2

end Sys2Proof.Laws
end

