-- ==== Sys2Proof/Laws/Render.lean ====
section
/-! SUPPORT. `pow2` is the power of two, and splitting off the factors 2 of a number. -/

namespace Sys2Proof.Machine

/-- `pow2` is the integer power of two. -/
theorem pow2_eq_zpow (k : Int) : pow2 k = (2 : Rat) ^ k := by
  cases k with
  | ofNat n => simp [pow2]
  | negSucc n => simp [pow2, zpow_negSucc]

theorem pow2_pos (k : Int) : 0 < pow2 k := by rw [pow2_eq_zpow]; positivity

theorem pow2_add (a b : Int) : pow2 (a + b) = pow2 a * pow2 b := by
  simp only [pow2_eq_zpow]
  exact zpow_add₀ (by norm_num) a b

/-- Splitting keeps the number. -/
theorem splitOdd_eq (fuel m : Nat) : (splitOdd fuel m).1 * 2 ^ (splitOdd fuel m).2 = m := by
  induction fuel generalizing m with
  | zero => simp [splitOdd]
  | succ n ih =>
    unfold splitOdd
    split
    · simp
    · have h := ih (m / 2)
      rw [Nat.pow_succ, ← Nat.mul_assoc, h]
      omega

/-- Splitting with enough fuel leaves an odd part. -/
theorem splitOdd_odd {fuel m : Nat} (hm : m ≠ 0) (hf : m < 2 ^ fuel) : (splitOdd fuel m).1 % 2 = 1 := by
  induction fuel generalizing m with
  | zero => simp at hf; omega
  | succ n ih =>
    unfold splitOdd
    split
    · assumption
    · rw [Nat.pow_succ] at hf
      exact ih (by omega) (by omega)

/-- `m = m' * 2^t` (41_render.md R112). -/
theorem oddPart_mul_twos (m : Nat) : oddPart m * 2 ^ twos m = m := splitOdd_eq _ _

/-- `m'` is odd (41_render.md R112). -/
theorem oddPart_odd {m : Nat} (hm : m ≠ 0) : oddPart m % 2 = 1 := splitOdd_odd hm (lt_two_pow_bitlen m)

end Sys2Proof.Machine
end

