-- ==== Sys2Proof/Tests/Slice0.lean ====
section
/-! SUPPORT. The model's own tests. Expected values come from 95_test_vectors.md (the id is in the comment) or from the
rules by hand. Then one witness for the hypotheses of every statement that has any. -/

namespace Sys2Proof.Tests

open Sys2Proof.Machine

/-! ## Helpers -/

/-- The instance of 95_test_vectors.md section 3 at power-up, about to be given one operation. -/
def about (bits ew sw : Nat) : State := { State.reset with pending := [.decode bits ew sw] }

/-- The unbounded block at power-up, about to be given one operation. -/
def aboutUnbounded (bits ew sw : Nat) : State :=
  { State.powerUp ⟨.unbounded, none⟩ with pending := [.decode bits ew sw] }

/-- A fixed-format binary32 block (00_scope.md R9) at power-up, about to be given a pattern. -/
def aboutTied (bits : Nat) : State :=
  { State.powerUp ⟨.bounded 8 23 32, some ⟨8, 23⟩⟩ with pending := [.decode bits 5 10] }

/-- That fixed-format block, its inputs held, about to be disturbed and then given a pattern. -/
def aboutTiedDisturbed (bits : Nat) : State :=
  { State.powerUp ⟨.bounded 8 23 32, some ⟨8, 23⟩⟩ with
    inputs := { bitsIn := 5, ewIn := 8, swIn := 23, held := true }, pending := [.disturb, .decode bits 5 10] }

/-- The instance of 95_test_vectors.md section 3 with an operation held, about to be disturbed and then given another. -/
def aboutDisturbed (bits ew sw : Nat) : State :=
  { State.reset with
    inputs := { bitsIn := 0x3C00, ewIn := 5, swIn := 10, held := true }, pending := [.disturb, .decode bits ew sw] }

/-- The state after one step (the same state where the step stops). -/
def after (s : State) : State := match step s with | .next t => t | .fault _ => s | .refused _ => s

/-- The defined output ports after one operation of that instance. -/
def ports (bits ew sw : Nat) : Defined := definedPorts (after (about bits ew sw)).outputs

/-! ## WellFormed: an ill-formed term for each check, refused -/

theorem test_wf_refuses_zero_ew : (Instr.decodeZero ⟨0, 10⟩ 0).wellFormed (.bounded 11 52 64) = false := by decide
theorem test_wf_refuses_zero_sw : (Instr.decodeZero ⟨5, 0⟩ 0).wellFormed (.bounded 11 52 64) = false := by decide
theorem test_wf_refuses_wide_ew : (Instr.decodeZero ⟨12, 10⟩ 0).wellFormed (.bounded 11 52 64) = false := by decide
theorem test_wf_refuses_wide_sw : (Instr.decodeZero ⟨5, 53⟩ 0).wellFormed (.bounded 11 52 64) = false := by decide
theorem test_wf_refuses_nan_zero_payload : (Instr.decodeNan ⟨5, 10⟩ 0 0).wellFormed .unbounded = false := by decide
theorem test_wf_refuses_nan_wide_payload : (Instr.decodeNan ⟨5, 10⟩ 0 1024).wellFormed .unbounded = false := by decide
theorem test_wf_refuses_subnormal_zero : (Instr.decodeSubnormal ⟨5, 10⟩ 0 0).wellFormed .unbounded = false := by decide
theorem test_wf_refuses_subnormal_wide : (Instr.decodeSubnormal ⟨5, 10⟩ 0 1024).wellFormed .unbounded = false := by
  decide
theorem test_wf_refuses_normal_zero_exp : (Instr.decodeNormal ⟨5, 10⟩ 0 0 0).wellFormed .unbounded = false := by decide
theorem test_wf_refuses_normal_all_ones : (Instr.decodeNormal ⟨5, 10⟩ 0 31 0).wellFormed .unbounded = false := by decide
theorem test_wf_refuses_normal_wide_f : (Instr.decodeNormal ⟨5, 10⟩ 0 1 1024).wellFormed .unbounded = false := by decide
theorem test_wf_accepts : (Instr.decodeNormal ⟨5, 10⟩ 1 30 1023).wellFormed (.bounded 5 10 16) = true := by decide

/-! ## Decode: words written out bit by bit from the rows' encodings (s, e, f) -/

theorem test_decode_infinity :
    decodeWord .unbounded 0b1_11111_0000000000 5 10 = .ok (.decodeInfinity ⟨5, 10⟩ 1) := by decide
theorem test_decode_nan : decodeWord .unbounded 0b0_11111_1000000001 5 10 = .ok (.decodeNan ⟨5, 10⟩ 0 513) := by decide
theorem test_decode_zero : decodeWord .unbounded 0b1_00000_0000000000 5 10 = .ok (.decodeZero ⟨5, 10⟩ 1) := by decide
theorem test_decode_subnormal :
    decodeWord .unbounded 0b1_00000_1111111110 5 10 = .ok (.decodeSubnormal ⟨5, 10⟩ 1 1022) := by decide
theorem test_decode_normal :
    decodeWord .unbounded 0b1_10001_0100000000 5 10 = .ok (.decodeNormal ⟨5, 10⟩ 1 17 256) := by decide
/-- V8: excess bits are masked. -/
theorem test_decode_masks : decodeWord .unbounded 0xFFFF3C00 5 10 = .ok (.decodeNormal ⟨5, 10⟩ 0 15 0) := by decide
/-- V73: with `ew = 1`, `e = 1` is INFINITY, not NORMAL. -/
theorem test_decode_one_exp_bit : decodeWord .unbounded 0b01000 1 3 = .ok (.decodeInfinity ⟨1, 3⟩ 0) := by decide
/-- V5: a width above the maximum is rejected by name. -/
theorem test_decode_rejects : decodeWord (.bounded 11 52 64) 0x3C00 5 53 = .error .invalidParameter := by decide
theorem test_encode_normal : (Instr.decodeNormal ⟨8, 23⟩ 1 128 0).encode = 0xC0000000 := by decide
theorem test_table_word_nan : decodeTableWord 32 0xFF800001 = some (.decodeNan ⟨8, 23⟩ 1 1) := by decide
/-- Bits above the table's are 0. -/
theorem test_table_word_short : decodeTableWord 8 0xFF800001 = some (.decodeSubnormal ⟨8, 23⟩ 0 1) := by decide

/-! ## Widths (00_scope.md R8; the values of 95_test_vectors.md section 3) -/

theorem test_port_widths :
    (Params.bounded 11 52 64).ewiW = some 4 ∧ (Params.bounded 11 52 64).swiW = some 6 ∧
    (Params.bounded 11 52 64).expuW = some 12 ∧ (Params.bounded 11 52 64).mantW = some 53 ∧
    (Params.bounded 11 52 64).scW = some 13 := by decide

/-! ## Operations: the defined ports -/

/-- P1 step 3, and V14. -/
theorem test_infinity_ports : ports 0x7F800000 8 23 = ⟨0, some 3, some 0, some 0xFF, some 0, none, none, none⟩ := by
  decide
/-- V19: both edge widths. -/
theorem test_infinity_small : (after (about 0b110 1 1)).result = some (.inf 1) := by decide
/-- P6 step 5: the payload is passed on. -/
theorem test_nan_ports :
    ports 0xFFF8000000000000 11 52 = ⟨0, some 4, some 1, some 0x7FF, some 0x8000000000000, none, none, none⟩ := by decide
/-- V24: the abstract result drops the payload. -/
theorem test_nan_result : (after (about 0x7FFFFFFF 8 23)).result = some (.nan 0) := by decide
/-- V31. -/
theorem test_zero_ports :
    ports 0x80000000 8 23 = ⟨0, some 0, some 1, some 0, some 0, some (-126), some 0, some (-149)⟩ := by decide
/-- V34: `ew = 1` gives `eu = 1`. -/
theorem test_zero_small : ports 0b000 1 1 = ⟨0, some 0, some 0, some 0, some 0, some 1, some 0, some 0⟩ := by decide
/-- P5 step 2. -/
theorem test_subnormal_ports :
    ports 0x03FF 5 10 = ⟨0, some 1, some 0, some 0, some 0x3FF, some (-14), some 0x3FF, some (-24)⟩ := by decide
/-- V44: with `ew = 1` a subnormal is 1.0. -/
theorem test_subnormal_small : (after (about 0b001 1 1)).result = some (.finite 0 1 0) := by decide
/-- V11. -/
theorem test_normal_ports :
    ports 0xABCD 5 10 = ⟨0, some 2, some 1, some 10, some 973, some (-5), some 0x7CD, some (-15)⟩ := by decide
/-- V51: the largest binary32 value, a scale that is not negative. -/
theorem test_normal_largest : (after (about 0x7F7FFFFF 8 23)).result = some (.finite 0 0xFFFFFF 104) := by decide

/-- P1 step 1 and P6 step 2: the signed ports as two's complement words. -/
theorem test_signed_wires :
    signedWires 13 (after (about 0x3F800000 8 23)).outputs.scaleOut = 0x1FE9 ∧
    signedWires 12 (after (about 0x8000000000000000 11 52)).outputs.expUnbOut = 0xC02 := by decide

/-- V1: a width 0 is InvalidParameter. -/
theorem test_error_ports : ports 0x3C00 0 10 = ⟨1, none, none, none, none, none, none, none⟩ := by decide
/-- V4, on the unbounded block: the input that the bounded block rejects decodes. -/
theorem test_unbounded_decodes :
    (after (about 0x3C00 12 10)).result = some .invalidParameter ∧
    (after (aboutUnbounded 0x3C00 12 10)).result = some (.finite 0 0x400 (-2042)) := by decide
/-- P4 steps 4 and 5: an error leaves nothing behind. -/
theorem test_recovers :
    (after { after (about 0x3C00 5 53) with pending := [.decode 0xFFFFFFFFFFFF3C00 5 10] }).result
      = some (.finite 0 0x400 (-10)) := by decide
/-- R9: the tied widths decide, not the caller's. -/
theorem test_tied_widths : (after (aboutTied 0xC0000000)).result = some (.finite 1 0x800000 (-22)) := by decide
/-- R141, R143: after `disturb` the inputs are not held, though the operation before it was. -/
theorem test_disturb_unholds : (aboutDisturbed 0 1 1).inputs.held = true ∧
    (after (aboutDisturbed 0 1 1)).inputs.held = false ∧ (after (after (aboutDisturbed 0 1 1))).inputs.held = true := by
  decide
/-- R9: with legal tied widths `err` is 0 at power-up and after a disturbed sampling. -/
theorem test_tied_err_constant : (aboutTied 0).outputs.err = 0 ∧ (after (aboutTiedDisturbed 0)).outputs.err = 0 := by
  decide
/-- R61: the shorthands expand to one DECODE each. -/
theorem test_shorthands : CallerAction.b16 1 = .decode 1 5 10 ∧ CallerAction.b32 1 = .decode 1 8 23 ∧
    CallerAction.b64 1 = .decode 1 11 52 := by decide
/-- R141: at power-up the step samples undriven inputs and changes no input. -/
theorem test_power_up_samples : (after State.reset).inputs = State.reset.inputs ∧ (after State.reset).draws = 2 := by
  decide
/-- The host's fetch: the very next step runs the table word's instruction. -/
theorem test_fetch_word : step (State.reset.withFetchWord 32 0xFF800001)
    = exec (.decodeNan ⟨8, 23⟩ 1 1) (State.reset.withFetchWord 32 0xFF800001).present := by rfl

/-! ## The value and its rendering -/

/-- X3: `2^-24`. -/
theorem test_value : denoted (.finite 0 1 (-24)) = .rational (1 / 16777216) := by
  norm_num [denoted, magnitude, pow2_eq_zpow]
/-- X1: `-0.0`. -/
theorem test_render_negative_zero : render64 (.finite 1 0 (-149)) = some 0x8000000000000000 := by decide
/-- X2 (1.0), and the smallest binary64 subnormal of V43. -/
theorem test_render_exact : render64 (.finite 0 0x800000 (-23)) = some 0x3FF0000000000000 ∧
    render64 (.finite 0 1 (-1074)) = some 1 := by decide
/-- X4: `-inf`. -/
theorem test_render_infinity : render64 (.inf 1) = some 0xFFF0000000000000 := by decide
/-- X6 and X7: not representable, so open; the recommended rounding gives 1.0 and +inf. -/
theorem test_render_open : representable64 (2 ^ 112 + 1) (-112) = false ∧
    representable64 (2 ^ 113 - 1) 16271 = false ∧
    roundNearestEven64 0 (2 ^ 112 + 1) (-112) = 0x3FF0000000000000 ∧
    roundNearestEven64 0 (2 ^ 113 - 1) 16271 = 0x7FF0000000000000 := by decide

/-! ## Witnesses: the hypotheses of each statement are met, at the ends of their ranges -/

/-- A state that meets the invariant: power-up of a fixed-format instance. -/
theorem aboutTied_inv : (aboutTied 0).Inv :=
  ⟨by decide, by decide, by decide, unsettled_inRange _ _, fun _ => by decide, by decide⟩

theorem witness_StepRunsDecodedOperation : (about 0x7F800000 8 23).Held ∧
    decodeWord (about 0x7F800000 8 23).config.params (about 0x7F800000 8 23).present.inputs.bitsIn
      (about 0x7F800000 8 23).present.inputs.ewIn (about 0x7F800000 8 23).present.inputs.swIn
      = .ok (.decodeInfinity ⟨8, 23⟩ 0) := ⟨rfl, by decide⟩

/-- Each clause: the largest widths the ports carry, a pattern wider than the port, tied and unbounded instances. -/
theorem witness_CallerDrivesOperationOnPorts : (about 0 15 63).config = ⟨.bounded 11 52 64, none⟩ ∧
    (about 0 15 63).pending = .decode 0 15 63 :: [] ∧ 15 < 2 ^ bitlen 11 ∧ 63 < 2 ^ bitlen 52 ∧
    (about (2 ^ 64) 15 63).pending = .decode (2 ^ 64) 15 63 :: [] ∧
    (aboutUnbounded (2 ^ 64) 15 112).config = ⟨.unbounded, none⟩ ∧
    (aboutUnbounded (2 ^ 64) 15 112).pending = .decode (2 ^ 64) 15 112 :: [] ∧
    (aboutTied (2 ^ 32)).config = ⟨.bounded 8 23 32, some ⟨8, 23⟩⟩ ∧
    (aboutTied (2 ^ 32)).pending = .decode (2 ^ 32) 5 10 :: [] ∧
    ({ State.powerUp ⟨.unbounded, some ⟨1, 1⟩⟩ with pending := [.decode 7 5 10] } : State).config
      = ⟨.unbounded, some ⟨1, 1⟩⟩ ∧
    State.reset.pending = [] := by decide

/-- One state for each way the widths are illegal, and the two ends of the legal widths. -/
theorem witness_IllegalWidthsRaiseInvalidParameter :
    ((about 0 0 1).Held ∧ (about 0 0 1).nextFormat.ew < 1) ∧ ((about 0 1 0).Held ∧ (about 0 1 0).nextFormat.sw < 1) ∧
    ((about 0 12 1).Held ∧ within (about 0 12 1).config.params.ewMax (about 0 12 1).nextFormat.ew = false) ∧
    ((about 0 1 53).Held ∧ within (about 0 1 53).config.params.swMax (about 0 1 53).nextFormat.sw = false) ∧
    (about 0 1 1).Ready ∧ (about 0 11 52).Ready :=
  ⟨⟨rfl, by decide⟩, ⟨rfl, by decide⟩, ⟨rfl, by decide⟩, ⟨rfl, by decide⟩, ⟨rfl, by decide⟩, ⟨rfl, by decide⟩⟩

/-- `DECODE 0x3C00, -1, 10` and `DECODE 0x3C00, 5, 0`. -/
theorem witness_NonPositiveWidthsAreRejected :
    ({ State.reset with pending := [.decodeSigned 0x3C00 (-1) 10] } : State).config.tied = none ∧
    ((-1 : Int) ≤ 0 ∨ (10 : Int) ≤ 0) ∧ ((5 : Int) ≤ 0 ∨ (0 : Int) ≤ 0) ∧
    (about 0x3C00 0 10).pending = .decodeSigned 0x3C00 (-1) 10 :: [] := by decide

/-- At power-up and after a disturb, on a block that is not tied; the same on a fixed-format one with legal widths; and
on a fixed-format one with illegal widths. -/
theorem witness_UnsettledInputsSampleFreeValues :
    (¬ State.reset.Held ∧ ¬ (aboutDisturbed 0 1 1).Held ∧ (aboutDisturbed 0 1 1).config.tied = none) ∧
    (¬ (State.powerUp ⟨.bounded 8 23 32, some ⟨8, 23⟩⟩).Held ∧ ¬ (aboutTiedDisturbed 0).Held ∧
      (aboutTiedDisturbed 0).config.tied = some ⟨8, 23⟩ ∧
      (aboutTiedDisturbed 0).config.params.legal ⟨8, 23⟩ = true) ∧
    (¬ (State.powerUp ⟨.bounded 8 23 32, some ⟨0, 23⟩⟩).Held ∧
      (Params.bounded 8 23 32).legal ⟨0, 23⟩ = false) := by
  refine ⟨⟨?_, ?_, rfl⟩, ⟨?_, ?_, rfl, by decide⟩, ?_, by decide⟩ <;>
    exact fun h => Bool.noConfusion (show false = true from h)

theorem witness_DisturbLeavesInputsUnheld : (aboutDisturbed 7 1 1).pending = .disturb :: [.decode 7 1 1] ∧
    (aboutTiedDisturbed 7).pending = .disturb :: [.decode 7 5 10] := by decide

theorem witness_StepChangesOnlyPortsAndMoves : step (about 0 1 1) = .next (after (about 0 1 1)) := rfl

/-- The smallest and the widest legal widths of the instance, and a pattern of the class. -/
theorem witness_InfinityClassForm : State.reset.config.params.legal ⟨1, 1⟩ = true ∧
    State.reset.config.params.legal ⟨11, 52⟩ = true ∧
    Format.sign ⟨1, 1⟩ (Format.word ⟨1, 1⟩ 0b110) = 1 ∧ Format.expField ⟨1, 1⟩ (Format.word ⟨1, 1⟩ 0b110) = 2 ^ 1 - 1 ∧
    Format.sigField ⟨1, 1⟩ (Format.word ⟨1, 1⟩ 0b110) = 0 := by decide

/-- The smallest and the largest payload, and `sw = 1`. -/
theorem witness_NanClassForm : (Instr.decodeNan ⟨8, 23⟩ 1 1).wellFormed State.reset.config.params = true ∧
    (Instr.decodeNan ⟨8, 23⟩ 1 (2 ^ 23 - 1)).wellFormed State.reset.config.params = true ∧
    (Instr.decodeNan ⟨2, 1⟩ 0 1).wellFormed State.reset.config.params = true ∧
    Format.sign ⟨2, 1⟩ (Format.word ⟨2, 1⟩ 0b0111) = 0 ∧ Format.expField ⟨2, 1⟩ (Format.word ⟨2, 1⟩ 0b0111) = 2 ^ 2 - 1 ∧
    Format.sigField ⟨2, 1⟩ (Format.word ⟨2, 1⟩ 0b0111) = 1 := by decide

/-- Legal widths at both ends, the smallest and the largest subnormal significand, `ew = 1`, patterns of both classes. -/
theorem witness_ZeroExponentClassForms : State.reset.config.params.legal ⟨1, 1⟩ = true ∧
    State.reset.config.params.legal ⟨11, 52⟩ = true ∧
    (1 ≠ 0 ∧ 1 < 2 ^ 52) ∧ (2 ^ 52 - 1 ≠ 0 ∧ 2 ^ 52 - 1 < 2 ^ 52) ∧ (Format.mk 1 1).ew = 1 ∧
    Format.sign ⟨1, 1⟩ (Format.word ⟨1, 1⟩ 0b100) = 1 ∧ Format.expField ⟨1, 1⟩ (Format.word ⟨1, 1⟩ 0b100) = 0 ∧
    Format.sign ⟨1, 1⟩ (Format.word ⟨1, 1⟩ 0b101) = 1 ∧ Format.expField ⟨1, 1⟩ (Format.word ⟨1, 1⟩ 0b101) = 0 := by
  decide

/-- The smallest and the largest exponent and significand, and a pattern of the class. -/
theorem witness_NormalClassForm : (Instr.decodeNormal ⟨5, 10⟩ 0 1 0).wellFormed State.reset.config.params = true ∧
    (Instr.decodeNormal ⟨5, 10⟩ 0 30 1023).wellFormed State.reset.config.params = true ∧
    (Instr.decodeNormal ⟨2, 1⟩ 0 1 1).wellFormed State.reset.config.params = true ∧
    Format.sign ⟨2, 1⟩ (Format.word ⟨2, 1⟩ 0b0011) = 0 ∧ Format.expField ⟨2, 1⟩ (Format.word ⟨2, 1⟩ 0b0011) = 1 ∧
    Format.sigField ⟨2, 1⟩ (Format.word ⟨2, 1⟩ 0b0011) = 1 := by decide

/-- One instruction of each class. -/
theorem witness_DecodeOfEncodeGivesInstruction :
    (Instr.decodeInfinity ⟨1, 1⟩ 1).wellFormed .unbounded = true ∧
    (Instr.decodeNan ⟨11, 52⟩ 1 (2 ^ 52 - 1)).wellFormed .unbounded = true ∧
    (Instr.decodeZero ⟨1, 1⟩ 1).wellFormed .unbounded = true ∧
    (Instr.decodeSubnormal ⟨1, 3⟩ 0 7).wellFormed .unbounded = true ∧
    (Instr.decodeNormal ⟨8, 23⟩ 0 254 0).wellFormed .unbounded = true := by decide

theorem witness_EncodeOfDecodeGivesWord :
    decodeWord .unbounded 0x13F800000 8 23 = .ok (.decodeNormal ⟨8, 23⟩ 0 127 0) := by decide

theorem witness_WordLengthFollowsTheWidths : (Params.bounded 11 52 64).legal ⟨1, 1⟩ = true ∧
    (Params.bounded 11 52 64).legal ⟨11, 52⟩ = true ∧ Params.unbounded.legal ⟨15, 112⟩ = true ∧
    (Params.bounded 1 1 1).wf = true := by decide

/-- The lowest and the highest bit of each field. -/
theorem witness_FieldsAreTheBitsOfThePattern : 1 ≤ (Format.mk 8 23).ew ∧ 1 ≤ (Format.mk 8 23).sw ∧
    0 < (Format.mk 8 23).ew ∧ 7 < (Format.mk 8 23).ew ∧ 22 < (Format.mk 8 23).sw := by decide

/-- The smallest and the largest word of the smallest format, and the largest word without a sign. -/
theorem witness_MatchAndMaskSelectTheClass : 1 ≤ (Format.mk 1 1).ew ∧ 1 ≤ (Format.mk 1 1).sw ∧
    0 < 2 ^ (1 + (Format.mk 1 1).ew + (Format.mk 1 1).sw) ∧ 7 < 2 ^ (1 + (Format.mk 1 1).ew + (Format.mk 1 1).sw) ∧
    3 < 2 ^ ((Format.mk 1 1).ew + (Format.mk 1 1).sw) := by decide

theorem witness_ClassesPartitionTheWords : 1 ≤ (Format.mk 1 1).sw ∧ (Format.mk 1 1).ew = 1 ∧ 2 ≤ (Format.mk 2 1).ew ∧
    7 < 2 ^ (Format.mk 1 1).wordBits ∧ 15 < 2 ^ (Format.mk 2 1).wordBits := by decide

theorem witness_PresentedInstructionRuns : (about 0xFF800001 8 23).config.tied = none ∧
    (about 0xFF800001 8 23).pending = (Instr.decodeNan ⟨8, 23⟩ 1 1).operation :: [] ∧
    (Instr.decodeNan ⟨8, 23⟩ 1 1).wellFormed (about 0xFF800001 8 23).config.params = true ∧
    fitsUnsigned (about 0xFF800001 8 23).config.params.inW (Instr.decodeNan ⟨8, 23⟩ 1 1).encode = true := by decide

/-- A held operation with legal widths, and one with illegal widths. -/
theorem witness_StepComputesThePseudocode : (about 0xABCD 5 10).Held ∧ (about 0xABCD 0 10).Held := ⟨rfl, rfl⟩

/-- A port as wide as the word, and one that is shorter (with a bit above it). -/
theorem witness_BoundedBlockComputesSourceDecoder :
    (about 0xABCD 11 52).config = ⟨.bounded 11 52 64, none⟩ ∧
    (about 0xABCD 11 52).pending = .decode 0xABCD 11 52 :: [] ∧
    (about 0xABCD 11 52).config.params.legal ⟨11, 52⟩ = true ∧ 1 + 11 + 52 ≤ 64 ∧ 64 ≤ 64 ∧
    (Params.bounded 11 52 8).legal ⟨5, 10⟩ = true ∧ ¬ 1 + 5 + 10 ≤ 8 := by decide

/-- Two states that differ in the excess bits, the outputs and the draws (V8, V52). -/
theorem witness_DefinedOutputsDependOnOperationAlone :
    (about 0xFFFF3C00 5 10).config.params = ({ after State.reset with pending := [.decode 0x3C00 5 10] } : State).config.params ∧
    (about 0xFFFF3C00 5 10).Held ∧ ({ after State.reset with pending := [.decode 0x3C00 5 10] } : State).Held ∧
    (about 0xFFFF3C00 5 10).nextFormat = ({ after State.reset with pending := [.decode 0x3C00 5 10] } : State).nextFormat ∧
    (about 0xFFFF3C00 5 10).nextWord = ({ after State.reset with pending := [.decode 0x3C00 5 10] } : State).nextWord :=
  ⟨by decide, rfl, rfl, by decide, by decide⟩

/-- After an error and a disturbed sampling, and with nothing before. -/
theorem witness_HistoryLeavesNoTrace :
    ({ State.reset with pending := [.decode 0 0 0, .disturb, .decode 0x3C00 5 10] } : State).pending
      = [.decode 0 0 0, .disturb] ++ [.decode 0x3C00 5 10] ∧
    (about 0x3C00 5 10).pending = [] ++ [.decode 0x3C00 5 10] := by decide

/-- Operations that are ready, with the narrowest and the widest legal widths. -/
theorem witness_EveryPatternHasAResult : (about 0 1 1).Ready ∧ (about (2 ^ 64 - 1) 11 52).Ready :=
  ⟨⟨rfl, by decide⟩, ⟨rfl, by decide⟩⟩

/-- One ready operation for each class. -/
theorem witness_ClassCodeFollowsTheFields : ((about 0b0000 2 1).Ready ∧ (after (about 0b0000 2 1)).outputs.cls = 0) ∧
    ((about 0b0001 2 1).Ready ∧ (after (about 0b0001 2 1)).outputs.cls = 1) ∧
    ((about 0b0101 2 1).Ready ∧ (after (about 0b0101 2 1)).outputs.cls = 2) ∧
    ((about 0b0110 2 1).Ready ∧ (after (about 0b0110 2 1)).outputs.cls = 3) ∧
    ((about 0b0111 2 1).Ready ∧ (after (about 0b0111 2 1)).outputs.cls = 4) :=
  ⟨⟨⟨rfl, by decide⟩, by decide⟩, ⟨⟨rfl, by decide⟩, by decide⟩, ⟨⟨rfl, by decide⟩, by decide⟩,
    ⟨⟨rfl, by decide⟩, by decide⟩, ⟨⟨rfl, by decide⟩, by decide⟩⟩

theorem witness_SignIsKeptApart : (about 0x8000 5 10).Ready ∧
    (about 0x8000 5 10).nextWord = 2 ^ ((about 0x8000 5 10).nextFormat.ew + (about 0x8000 5 10).nextFormat.sw) :=
  ⟨⟨rfl, by decide⟩, by decide⟩

theorem witness_FiniteResultDenotesSourceFormula : (about 0xC500 5 10).Ready ∧
    hasMagnitude (after (about 0xC500 5 10)).outputs = true ∧ (after (about 0xC500 5 10)).outputs.mantOut ≠ 0 ∧
    (about 0x8000 5 10).Ready ∧ hasMagnitude (after (about 0x8000 5 10)).outputs = true ∧
    (after (about 0x8000 5 10)).outputs.mantOut = 0 :=
  ⟨⟨rfl, by decide⟩, by decide, by decide, ⟨rfl, by decide⟩, by decide, by decide⟩

/-- Ready operations at the ends of the ranges: the smallest exponent, the largest, and `ew = 1`. -/
theorem witness_OutputsStayInTheirRanges :
    ((about 0x0000 5 10).Ready ∧ hasMagnitude (after (about 0x0000 5 10)).outputs = true) ∧
    ((about 0x7BFF 5 10).Ready ∧ hasMagnitude (after (about 0x7BFF 5 10)).outputs = true) ∧
    ((about 0b001 1 1).Ready ∧ hasMagnitude (after (about 0b001 1 1)).outputs = true) ∧
    (Params.bounded 5 10 16).legal ⟨5, 10⟩ = true ∧ 31 ≤ 2 ^ 5 - 1 ∧ 1023 ≤ 2 ^ 10 - 1 ∧ 2047 ≤ 2 ^ (10 + 1) - 1 ∧
    (1 - bias ⟨5, 10⟩ ≤ -14 ∧ (-14 : Int) ≤ max 1 (bias ⟨5, 10⟩)) ∧
    (1 - bias ⟨5, 10⟩ - 10 ≤ -24 ∧ (-24 : Int) ≤ max 1 (bias ⟨5, 10⟩) - 10) :=
  ⟨⟨⟨rfl, by decide⟩, by decide⟩, ⟨⟨rfl, by decide⟩, by decide⟩, ⟨⟨rfl, by decide⟩, by decide⟩, by decide, by decide,
    by decide, by decide, by decide, by decide⟩

/-- P5 steps 2 and 3: across the boundary of subnormals and normals. -/
theorem witness_MagnitudeGrowsWithTheWord : (about 0x03FF 5 10).Ready ∧ (about 0x0400 5 10).Ready ∧
    (about 0x03FF 5 10).nextFormat = (about 0x0400 5 10).nextFormat ∧
    (about 0x03FF 5 10).nextWord < (about 0x0400 5 10).nextWord ∧
    step (about 0x03FF 5 10) = .next (after (about 0x03FF 5 10)) ∧
    step (about 0x0400 5 10) = .next (after (about 0x0400 5 10)) ∧
    (after (about 0x03FF 5 10)).result = some (.finite 0 0x3FF (-24)) ∧
    (after (about 0x0400 5 10)).result = some (.finite 0 0x400 (-24)) :=
  ⟨⟨rfl, by decide⟩, ⟨rfl, by decide⟩, by decide, by decide, rfl, rfl, by decide, by decide⟩

/-- `e = 0`; `e = 1` with a zero and with a nonzero significand (V72, V73, V74). -/
theorem witness_OneExponentBitHasNoNormals :
    ((about 0b00111 1 3).Ready ∧ (about 0b00111 1 3).nextFormat.ew = 1 ∧
      Format.expField ⟨1, 3⟩ (about 0b00111 1 3).nextWord = 0) ∧
    ((about 0b01000 1 3).Ready ∧ Format.expField ⟨1, 3⟩ (about 0b01000 1 3).nextWord ≠ 0 ∧
      Format.sigField ⟨1, 3⟩ (about 0b01000 1 3).nextWord = 0) ∧
    ((about 0b01001 1 3).Ready ∧ Format.expField ⟨1, 3⟩ (about 0b01001 1 3).nextWord ≠ 0 ∧
      Format.sigField ⟨1, 3⟩ (about 0b01001 1 3).nextWord ≠ 0) :=
  ⟨⟨⟨rfl, by decide⟩, by decide, by decide⟩, ⟨⟨rfl, by decide⟩, by decide, by decide⟩,
    ⟨⟨rfl, by decide⟩, by decide, by decide⟩⟩

/-- NORMAL, SUBNORMAL and NAN with `sw = 1` (V69, V65, V29). -/
theorem witness_OneSignificandBitMantissas :
    ((about 0b0101 2 1).Ready ∧ (about 0b0101 2 1).nextFormat.sw = 1 ∧ (after (about 0b0101 2 1)).outputs.cls = 2) ∧
    ((about 0b0001 2 1).Ready ∧ (after (about 0b0001 2 1)).outputs.cls = 1) ∧
    ((about 0b0111 2 1).Ready ∧ (after (about 0b0111 2 1)).outputs.cls = 4) :=
  ⟨⟨⟨rfl, by decide⟩, by decide, by decide⟩, ⟨⟨rfl, by decide⟩, by decide⟩, ⟨⟨rfl, by decide⟩, by decide⟩⟩

/-- V54, the largest binary16 value, and V70's format at its largest finite word. -/
theorem witness_LargestFiniteValue : (about 0x7BFF 5 10).Ready ∧ 2 ≤ (about 0x7BFF 5 10).nextFormat.ew ∧
    Format.expField ⟨5, 10⟩ (about 0x7BFF 5 10).nextWord = 2 ^ 5 - 2 ∧
    Format.sigField ⟨5, 10⟩ (about 0x7BFF 5 10).nextWord = 2 ^ 10 - 1 ∧
    (after (about 0x7BFF 5 10)).result = some (.finite 0 0x7FF 5) ∧ (after (about 0x7BFF 5 10)).outputs.cls = 2 :=
  ⟨⟨rfl, by decide⟩, by decide, by decide, by decide, by decide, by decide⟩

/-- With the inputs held, and disturbed. -/
theorem witness_FixedFormatNeverErrs : ((aboutTied 0).Inv ∧ (aboutTied 0).config.tied = some ⟨8, 23⟩ ∧
      (aboutTied 0).config.params.legal ⟨8, 23⟩ = true ∧ (aboutTied 0).Held) ∧
    ((aboutTiedDisturbed 0).Inv ∧ (aboutTiedDisturbed 0).config.tied = some ⟨8, 23⟩) :=
  ⟨⟨aboutTied_inv, by decide, by decide, rfl⟩,
    ⟨by decide, by decide, by decide, unsettled_inRange _ _, fun _ => by decide, by decide⟩, rfl⟩

theorem witness_StepKeepsPortInvariant : (aboutTied 0).Inv ∧ step (aboutTied 0) = .next (after (aboutTied 0)) :=
  ⟨aboutTied_inv, rfl⟩

/-- A bounded, a fixed-format and the unbounded instance. -/
theorem witness_PowerUpMeetsPortInvariant : BlockConfig.ofVectors.wf = true ∧
    (BlockConfig.mk (.bounded 1 1 1) (some ⟨1, 1⟩)).wf = true ∧ (BlockConfig.mk .unbounded none).wf = true := by decide

/-- Zero, the two ends of the binary64 range, and a value that needs 54 bits. -/
theorem witness_RenderingMeetsItsConstraints : representable64 0 5000 = true ∧
    representable64 1 (-1074) = true ∧ representable64 (2 ^ 53 - 1) 971 = true ∧
    representable64 (2 ^ 53 + 1) 0 = false := by decide

theorem witness_ReferenceFormatsAreRepresentable :
    (decodePseudocode .unbounded 0x7BFF Format.binary16.ew Format.binary16.sw).1 = .finite 0 0x7FF 5 ∧
    (decodePseudocode .unbounded 0x7F7FFFFF Format.binary32.ew Format.binary32.sw).1 = .finite 0 0xFFFFFF 104 ∧
    (decodePseudocode .unbounded 0x8000000000000001 Format.binary64.ew Format.binary64.sw).1
      = .finite 1 1 (-1074) := by decide

theorem witness_Binary64WordsRenderAsThemselves : Format.binary64.classOf (0x7FEFFFFFFFFFFFFF : BitVec 64).toNat ≠ .nan ∧
    Format.binary64.classOf (0xFFF8000000000000 : BitVec 64).toNat = .nan := by decide

/-- Zero, and a value whose mantissa has factors 2 to be rounded away exactly. -/
theorem witness_RecommendedRoundingIsExactWhereItCan : representable64 0 0 = true ∧
    representable64 (2 ^ 60) (-1100) = true := by decide

end Sys2Proof.Tests
end

section
/-! The class code: the condition of each class on the fields of the word, and the code that a ready operation drives
on `cls` (10_state.md R32). -/

namespace Sys2Proof

/-- The condition that the table of 10_state.md R32 gives for a class, on the exponent `e` and the significand `f`. -/
def Format.classCondition (fmt : Format) (e f : Nat) : WordClass → Prop
  | .zero => e = 0 ∧ f = 0
  | .subnormal => e = 0 ∧ f ≠ 0
  | .normal => 0 < e ∧ e < fmt.allOnes
  | .infinity => e = fmt.allOnes ∧ f = 0
  | .nan => e = fmt.allOnes ∧ f ≠ 0

/-- A word whose fields meet the condition of a class is classified in it. -/
theorem classify_of_classCondition {fmt : Format} (hew : 1 ≤ fmt.ew) {e f : Nat} {c : WordClass}
    (h : fmt.classCondition e f c) : classify fmt e f = c := by
  cases c with
  | zero =>
    obtain ⟨rfl, rfl⟩ := h
    exact classify_zero fmt hew
  | subnormal =>
    obtain ⟨rfl, hf⟩ := h
    exact classify_subnormal fmt hew hf
  | normal =>
    obtain ⟨hpos, hlt⟩ := h
    exact classify_normal fmt f hpos hlt
  | infinity =>
    obtain ⟨rfl, rfl⟩ := h
    exact classify_infinity fmt
  | nan =>
    obtain ⟨rfl, hf⟩ := h
    exact classify_nan fmt hf

/-- Every exponent of `ew` bits and every significand meet the condition of some class: the exponent is 0, all ones or
between them. -/
theorem exists_classCondition {fmt : Format} {e : Nat} (he : e < 2 ^ fmt.ew) (f : Nat) :
    ∃ c, fmt.classCondition e f c := by
  have hle : e ≤ fmt.allOnes := Nat.le_sub_one_of_lt he
  rcases Nat.eq_zero_or_pos e with h0 | hpos
  · by_cases hf : f = 0
    · exact ⟨.zero, h0, hf⟩
    · exact ⟨.subnormal, h0, hf⟩
  · rcases hle.lt_or_eq with hlt | h1
    · exact ⟨.normal, hpos, hlt⟩
    · by_cases hf : f = 0
      · exact ⟨.infinity, h1, hf⟩
      · exact ⟨.nan, h1, hf⟩

/-- The classifier finds exactly the class whose condition the fields meet. -/
theorem classify_eq_iff {fmt : Format} (hew : 1 ≤ fmt.ew) {e f : Nat} (he : e < 2 ^ fmt.ew) (c : WordClass) :
    classify fmt e f = c ↔ fmt.classCondition e f c := by
  constructor
  · rintro rfl
    obtain ⟨c, hc⟩ := exists_classCondition he f
    rwa [classify_of_classCondition hew hc]
  · exact classify_of_classCondition hew

/-- Different classes have different codes. -/
theorem code_inj {c c' : WordClass} : c.code = c'.code ↔ c = c' := by
  cases c <;> cases c' <;> decide

/-- The codes 5, 6 and 7 belong to no class. -/
theorem code_toNat_le (c : WordClass) : c.code.toNat ≤ 4 := by
  cases c <;> decide

end Sys2Proof

namespace Sys2Proof.Machine

/-- A ready operation runs the instruction of the fields of its word. -/
theorem step_of_ready {s : State} (h : s.Ready) :
    step s = exec (instrOfFields s.nextFormat (s.nextFormat.sign s.nextWord) (s.nextFormat.expField s.nextWord)
      (s.nextFormat.sigField s.nextWord)) s.present := by
  obtain ⟨hheld, hlegal⟩ := h
  have hdec := decodeWord_of_legal (bits := s.present.inputs.bitsIn) hlegal
  unfold State.Held at hheld
  simp only [step, State.sample, hheld, if_true, present_config, hdec]
  rfl

/-- The instruction of the fields completes with legal widths: no error, the code of the class of the fields, and
their sign. -/
theorem exec_instrOfFields_flags {s : State} {fmt : Format} (hlegal : s.config.params.legal fmt = true) (sign : Bit)
    (e f : Nat) :
    ∃ t, exec (instrOfFields fmt sign e f) s = .next t ∧ t.outputs.err = 0 ∧
      t.outputs.cls = (classify fmt e f).code ∧ t.outputs.signOut = sign := by
  unfold instrOfFields
  cases classify fmt e f with
  | infinity => exact ⟨_, validated_of_legal hlegal, rfl, rfl, rfl⟩
  | nan => exact ⟨_, validated_of_legal hlegal, rfl, rfl, rfl⟩
  | zero => exact ⟨_, validated_of_legal hlegal, rfl, rfl, rfl⟩
  | subnormal => exact ⟨_, validated_of_legal hlegal, rfl, rfl, rfl⟩
  | normal => exact ⟨_, validated_of_legal hlegal, rfl, rfl, rfl⟩

/-- A ready operation steps to a state with no error, the code of the class of its fields, and their sign. -/
theorem step_flags_of_ready {s : State} (h : s.Ready) :
    ∃ t, step s = .next t ∧ t.outputs.err = 0 ∧
      t.outputs.cls =
        (classify s.nextFormat (s.nextFormat.expField s.nextWord) (s.nextFormat.sigField s.nextWord)).code ∧
      t.outputs.signOut = s.nextFormat.sign s.nextWord := by
  rw [step_of_ready h]
  exact exec_instrOfFields_flags (by rw [present_config]; exact h.2) _ _ _

/-- Settles O26: a ready operation drives the code of the class that the classifier finds, different classes have
different codes, and the classifier finds exactly the class whose condition the fields meet. -/
theorem classCodeFollowsTheFields : Obligations.ClassCodeFollowsTheFields := by
  intro s hready
  obtain ⟨hew, -⟩ := (legal_iff s.nextFormat s.config.params).1 hready.2
  obtain ⟨t, hstep, -, hcls, -⟩ := step_flags_of_ready hready
  have hcode (c : WordClass) : t.outputs.cls = c.code ↔
      s.nextFormat.classCondition (s.nextFormat.expField s.nextWord) (s.nextFormat.sigField s.nextWord) c := by
    rw [hcls, code_inj]
    exact classify_eq_iff hew (expField_lt s.nextFormat hew s.nextWord) c
  have hmax : t.outputs.cls.toNat ≤ 4 := hcls ▸ code_toNat_le _
  exact ⟨t, hstep, hcode .zero, hcode .subnormal, hcode .normal, hcode .infinity, hcode .nan, hmax⟩

end Sys2Proof.Machine
end

section
/-! The length of the word, and where the bits of its fields stand in the pattern (30_encoding.md R50, R51). -/

namespace Sys2Proof

variable (fmt : Format)

/-- Settles O15: the length is `1 + ew + sw` by definition, and the bounds on it are those of legal widths. -/
theorem wordLengthFollowsTheWidths : Obligations.WordLengthFollowsTheWidths := by
  refine ⟨fun p fmt bits hlegal => ?_, fun ewMax swMax inW hwf => ?_⟩
  · obtain ⟨hew, hsw, hewMax, hswMax⟩ := (legal_iff fmt p).1 hlegal
    have hmin : 3 ≤ fmt.wordBits := by unfold Format.wordBits; omega
    have hmax : within p.nMax fmt.wordBits = true := by
      cases p with
      | unbounded => rfl
      | bounded ewMax swMax inW =>
        simp only [Params.ewMax, Params.swMax, Params.nMax, within, decide_eq_true_eq, Format.wordBits]
          at hewMax hswMax ⊢
        omega
    exact ⟨rfl, rfl, hmin, hmax⟩
  · obtain ⟨hew, hsw⟩ : 1 ≤ ewMax ∧ 1 ≤ swMax := by
      simp only [Params.wf, Bool.and_eq_true, decide_eq_true_eq] at hwf
      exact hwf.1
    have hlegal {ew sw : Nat} (he : 1 ≤ ew ∧ ew ≤ ewMax) (hs : 1 ≤ sw ∧ sw ≤ swMax) :
        (Params.bounded ewMax swMax inW).legal ⟨ew, sw⟩ = true := by
      simp [legal_iff, within, Params.ewMax, Params.swMax, he, hs]
    exact ⟨hlegal ⟨le_rfl, hew⟩ ⟨le_rfl, hsw⟩, rfl, hlegal ⟨hew, le_rfl⟩ ⟨hsw, le_rfl⟩, rfl⟩

/-- The bits of the word are the low `N` bits of the pattern. -/
theorem testBit_word (bits i : Nat) : (fmt.word bits).testBit i = (decide (i < fmt.wordBits) && bits.testBit i) :=
  Nat.testBit_mod_two_pow bits fmt.wordBits i

/-- The sign is bit `ew + sw` of the word. -/
theorem getLsbD_sign (w : Nat) : (fmt.sign w).getLsbD 0 = w.testBit (fmt.ew + fmt.sw) := by
  simp only [Format.sign, bitAt, BitVec.getLsbD_ofNat, Nat.testBit_div_two_pow, Nat.zero_add, Nat.zero_lt_one,
    decide_true, Bool.true_and]

/-- The exponent is the `ew` bits of the word above the significand. -/
theorem testBit_expField (hew : 1 ≤ fmt.ew) (w j : Nat) :
    (fmt.expField w).testBit j = (decide (j < fmt.ew) && w.testBit (fmt.sw + j)) := by
  rw [expField_eq fmt hew, Nat.testBit_mod_two_pow, Nat.testBit_div_two_pow, Nat.add_comm]

/-- The significand is the low `sw` bits of the word. -/
theorem testBit_sigField (hsw : 1 ≤ fmt.sw) (w j : Nat) :
    (fmt.sigField w).testBit j = (decide (j < fmt.sw) && w.testBit j) := by
  rw [sigField_eq fmt hsw, Nat.testBit_mod_two_pow]

/-- Settles O16: each field's bits are bits of the word, at a position below `N`, where the word agrees with the
pattern. -/
theorem fieldsAreTheBitsOfThePattern : Obligations.FieldsAreTheBitsOfThePattern := by
  intro fmt bits j hew hsw
  have hword {i : Nat} (hi : i ≤ fmt.sw + fmt.ew) : (fmt.word bits).testBit i = bits.testBit i := by
    have hlt : i < fmt.wordBits := by unfold Format.wordBits; omega
    simp [testBit_word, hlt]
  refine ⟨?_, fun hj => ?_, fun hj => ?_, Nat.le_sub_one_of_lt (expField_lt fmt hew _),
    Nat.le_sub_one_of_lt (sigField_lt fmt hsw _)⟩
  · rw [getLsbD_sign, Nat.add_comm, hword le_rfl]
  · simp [testBit_expField fmt hew, hj, hword (i := fmt.sw + j) (by omega)]
  · simp [testBit_sigField fmt hsw, hj, hword (i := j) (by omega)]

end Sys2Proof
end

section
/-! The classes partition the words (30_encoding.md R56, R57): what each mask keeps of a word, and so which condition on
the fields a row's match is; then a class as a rectangle of exponents and significands, which counts its words. -/

namespace Sys2Proof

variable (fmt : Format)

/-! ### Match and mask -/

/-- The exponent mask keeps the exponent, in its place. -/
theorem and_expMask (hew : 1 ≤ fmt.ew) (w : Nat) : w &&& fmt.expMask = fmt.expField w * 2 ^ fmt.sw := by
  rw [← Nat.shiftLeft_eq]
  apply Nat.eq_of_testBit_eq
  intro i
  simp only [Format.expMask, Nat.testBit_and, Nat.testBit_shiftLeft, Nat.testBit_two_pow_sub_one,
    testBit_expField fmt hew]
  by_cases hi : fmt.sw ≤ i
  · simp [hi, Nat.add_sub_of_le hi, Bool.and_comm]
  · simp [hi]

/-- The mask of the low `sw` bits keeps the significand. -/
theorem and_sigMask (hsw : 1 ≤ fmt.sw) (w : Nat) : w &&& (2 ^ fmt.sw - 1) = fmt.sigField w := by
  rw [Nat.and_two_pow_sub_one_eq_mod, sigField_eq fmt hsw]

/-- The mask of all bits but the sign keeps the exponent and the significand. -/
theorem and_magMask (hew : 1 ≤ fmt.ew) (hsw : 1 ≤ fmt.sw) (w : Nat) :
    w &&& fmt.magMask = fmt.expField w * 2 ^ fmt.sw + fmt.sigField w := by
  rw [Format.magMask, Nat.and_two_pow_sub_one_eq_mod, Nat.add_comm fmt.ew, Nat.pow_add, Nat.mod_mul,
    expField_eq fmt hew, sigField_eq fmt hsw]
  ring

/-- The exponent mask's bits are all set in a word just when its exponent is all ones. -/
theorem and_expMask_eq_expMask_iff (hew : 1 ≤ fmt.ew) (w : Nat) :
    w &&& fmt.expMask = fmt.expMask ↔ fmt.expField w = fmt.allOnes := by
  rw [and_expMask fmt hew, Format.expMask, Nat.shiftLeft_eq, ← Format.allOnes]
  exact Nat.mul_left_inj (Nat.two_pow_pos _).ne'

/-- The exponent mask's bits are all clear in a word just when its exponent is 0. -/
theorem and_expMask_eq_zero_iff (hew : 1 ≤ fmt.ew) (w : Nat) : w &&& fmt.expMask = 0 ↔ fmt.expField w = 0 := by
  simp [and_expMask fmt hew]

/-- Apart from the sign, a word is the exponent mask just when its exponent is all ones and its significand 0. -/
theorem and_magMask_eq_expMask_iff (hew : 1 ≤ fmt.ew) (hsw : 1 ≤ fmt.sw) (w : Nat) :
    w &&& fmt.magMask = fmt.expMask ↔ fmt.expField w = fmt.allOnes ∧ fmt.sigField w = 0 := by
  rw [and_magMask fmt hew hsw, Format.expMask, Nat.shiftLeft_eq, ← Format.allOnes]
  constructor
  · intro h
    have hsig : fmt.sigField w = 0 :=
      calc fmt.sigField w
          = (fmt.expField w * 2 ^ fmt.sw + fmt.sigField w) % 2 ^ fmt.sw := by
            rw [Nat.mul_add_mod_self_right, Nat.mod_eq_of_lt (sigField_lt fmt hsw w)]
        _ = 0 := by rw [h, Nat.mul_mod_left]
    rw [hsig, Nat.add_zero] at h
    exact ⟨Nat.eq_of_mul_eq_mul_right (Nat.two_pow_pos _) h, hsig⟩
  · rintro ⟨he, hf⟩
    rw [he, hf, Nat.add_zero]

/-- A row's match by mask is the condition of its class on the fields. -/
theorem rowMatches_iff_classCondition (hew : 1 ≤ fmt.ew) (hsw : 1 ≤ fmt.sw) (w : Nat) (c : WordClass) :
    fmt.rowMatches w c = true ↔ fmt.classCondition (fmt.expField w) (fmt.sigField w) c := by
  have hexp : fmt.expField w ≤ fmt.allOnes := Nat.le_sub_one_of_lt (expField_lt fmt hew w)
  cases c with
  | zero => simp [Format.rowMatches, Format.classCondition, and_magMask fmt hew hsw]
  | subnormal =>
    simp [Format.rowMatches, Format.classCondition, and_expMask_eq_zero_iff fmt hew, and_sigMask fmt hsw]
  | normal =>
    simp [Format.rowMatches, Format.classCondition, and_expMask_eq_zero_iff fmt hew,
      and_expMask_eq_expMask_iff fmt hew, Nat.pos_iff_ne_zero, hexp.lt_iff_ne]
  | infinity => simp [Format.rowMatches, Format.classCondition, and_magMask_eq_expMask_iff fmt hew hsw]
  | nan =>
    simp [Format.rowMatches, Format.classCondition, and_expMask_eq_expMask_iff fmt hew, and_sigMask fmt hsw]

/-- A row matches exactly the words that the classifier puts in its class. -/
theorem rowMatches_iff_classify (hew : 1 ≤ fmt.ew) (hsw : 1 ≤ fmt.sw) (w : Nat) (c : WordClass) :
    fmt.rowMatches w c = true ↔ classify fmt (fmt.expField w) (fmt.sigField w) = c := by
  rw [rowMatches_iff_classCondition fmt hew hsw, classify_eq_iff hew (expField_lt fmt hew w)]

/-! ### The words of a class -/

/-- The exponents of the words of a class. -/
def Format.classExps : WordClass → Finset Nat
  | .zero | .subnormal => {0}
  | .normal => Finset.Ioo 0 fmt.allOnes
  | .infinity | .nan => {fmt.allOnes}

/-- The significands of the words of a class. -/
def Format.classSigs : WordClass → Finset Nat
  | .zero | .infinity => {0}
  | .normal => Finset.range (2 ^ fmt.sw)
  | .subnormal | .nan => Finset.Ioo 0 (2 ^ fmt.sw)

/-- The `N`-bit words that the row of a class matches. -/
def Format.wordsOfClass (c : WordClass) : Finset Nat :=
  (Finset.range (2 ^ fmt.wordBits)).filter (fun w => fmt.rowMatches w c = true)

variable {fmt} {c : WordClass} {e f : Nat}

/-- The condition of a class bounds the exponent and the significand apart from each other. -/
theorem classCondition_iff_mem (hf : f < 2 ^ fmt.sw) :
    fmt.classCondition e f c ↔ e ∈ fmt.classExps c ∧ f ∈ fmt.classSigs c := by
  cases c <;> simp [Format.classCondition, Format.classExps, Format.classSigs, hf, Nat.pos_iff_ne_zero]

theorem lt_of_mem_classExps (he : e ∈ fmt.classExps c) : e < 2 ^ fmt.ew := by
  have hpos := Nat.two_pow_pos fmt.ew
  cases c <;> simp only [Format.classExps, Format.allOnes, Finset.mem_singleton, Finset.mem_Ioo] at he <;> omega

theorem lt_of_mem_classSigs (hf : f ∈ fmt.classSigs c) : f < 2 ^ fmt.sw := by
  have hpos := Nat.two_pow_pos fmt.sw
  cases c <;> simp only [Format.classSigs, Finset.mem_singleton, Finset.mem_Ioo, Finset.mem_range] at hf <;> omega

/-- With an exponent of 2 bits or more there is an exponent between 0 and all ones. -/
theorem classExps_nonempty (hew : 2 ≤ fmt.ew) (c : WordClass) : (fmt.classExps c).Nonempty := by
  have hpow : 2 ^ 2 ≤ 2 ^ fmt.ew := Nat.pow_le_pow_right (by decide) hew
  have hnormal : 1 ∈ fmt.classExps .normal := by
    simp only [Format.classExps, Format.allOnes, Finset.mem_Ioo]
    omega
  cases c with
  | normal => exact ⟨1, hnormal⟩
  | zero | subnormal | infinity | nan => exact Finset.singleton_nonempty _

theorem classSigs_nonempty (hsw : 1 ≤ fmt.sw) (c : WordClass) : (fmt.classSigs c).Nonempty := by
  have hpow : 2 ^ 1 ≤ 2 ^ fmt.sw := Nat.pow_le_pow_right (by decide) hsw
  have hone : 1 ∈ Finset.Ioo 0 (2 ^ fmt.sw) := by
    rw [Finset.mem_Ioo]
    omega
  cases c with
  | zero | infinity => exact Finset.singleton_nonempty _
  | normal => exact ⟨0, Finset.mem_range.2 (Nat.two_pow_pos _)⟩
  | subnormal | nan => exact ⟨1, hone⟩

/-- The row of a class matches the words packed from its exponents and significands, of either sign. -/
theorem pack_mem_wordsOfClass (hew : 1 ≤ fmt.ew) (hsw : 1 ≤ fmt.sw) (s : Bit) (he : e ∈ fmt.classExps c)
    (hf : f ∈ fmt.classSigs c) : fmt.pack s e f ∈ fmt.wordsOfClass c := by
  have he' := lt_of_mem_classExps he
  have hf' := lt_of_mem_classSigs hf
  rw [Format.wordsOfClass, Finset.mem_filter, Finset.mem_range, rowMatches_iff_classCondition fmt hew hsw,
    expField_pack fmt hew s he' hf', sigField_pack fmt hsw s hf', classCondition_iff_mem hf']
  exact ⟨pack_lt fmt he' hf', he, hf⟩

/-- The fields of a word of a class are an exponent and a significand of the class. -/
theorem fields_of_mem_wordsOfClass (hew : 1 ≤ fmt.ew) (hsw : 1 ≤ fmt.sw) {w : Nat} (hw : w ∈ fmt.wordsOfClass c) :
    fmt.expField w ∈ fmt.classExps c ∧ fmt.sigField w ∈ fmt.classSigs c := by
  rw [← classCondition_iff_mem (sigField_lt fmt hsw w), ← rowMatches_iff_classCondition fmt hew hsw]
  exact (Finset.mem_filter.1 hw).2

/-- Packing is a bijection from signs, exponents and significands to words, so a class has two words for each exponent
and significand of its own. -/
theorem card_wordsOfClass (hew : 1 ≤ fmt.ew) (hsw : 1 ≤ fmt.sw) (c : WordClass) :
    (fmt.wordsOfClass c).card = 2 * ((fmt.classExps c).card * (fmt.classSigs c).card) := by
  have hbij : (fmt.wordsOfClass c).card
      = ((Finset.univ : Finset Bit) ×ˢ fmt.classExps c ×ˢ fmt.classSigs c).card := by
    refine Finset.card_nbij' (fun w => (fmt.sign w, fmt.expField w, fmt.sigField w))
      (fun x => fmt.pack x.1 x.2.1 x.2.2) ?_ ?_ ?_ ?_
    · intro w hw
      simpa using fields_of_mem_wordsOfClass hew hsw hw
    · rintro ⟨s, e, f⟩ hx
      obtain ⟨he, hf⟩ : e ∈ fmt.classExps c ∧ f ∈ fmt.classSigs c := by simpa using hx
      exact pack_mem_wordsOfClass hew hsw s he hf
    · intro w hw
      exact pack_fields fmt hew hsw (Finset.mem_range.1 (Finset.mem_filter.1 hw).1)
    · rintro ⟨s, e, f⟩ hx
      obtain ⟨he, hf⟩ : e ∈ fmt.classExps c ∧ f ∈ fmt.classSigs c := by simpa using hx
      have he' := lt_of_mem_classExps he
      have hf' := lt_of_mem_classSigs hf
      simp [sign_pack fmt s he' hf', expField_pack fmt hew s he' hf', sigField_pack fmt hsw s hf']
  rw [hbij, Finset.card_product, Finset.card_product]
  rfl

/-- Settles O18: the classifier gives the one class whose row matches, and each class has two words for each exponent
and significand of its own. -/
theorem classesPartitionTheWords : Obligations.ClassesPartitionTheWords := by
  intro fmt hew hsw
  have hcard (c : WordClass) := card_wordsOfClass hew hsw c
  refine ⟨fun w _ => ?_, fun hone w _ => ?_, fun htwo c => ?_, hcard .infinity, hcard .zero,
    (hcard .nan).trans ?_, (hcard .subnormal).trans ?_, (hcard .normal).trans ?_⟩
  · exact ⟨_, (rowMatches_iff_classify fmt hew hsw w _).2 rfl,
      fun c hc => ((rowMatches_iff_classify fmt hew hsw w c).1 hc).symm⟩
  · rw [Bool.eq_false_iff, Ne, rowMatches_iff_classCondition fmt hew hsw]
    rintro ⟨hpos, hlt⟩
    simp only [Format.allOnes, hone] at hlt
    omega
  · obtain ⟨e, he⟩ := classExps_nonempty htwo c
    obtain ⟨f, hf⟩ := classSigs_nonempty hsw c
    have hmem := pack_mem_wordsOfClass hew hsw 0 he hf
    rw [Format.wordsOfClass, Finset.mem_filter, Finset.mem_range] at hmem
    exact ⟨_, hmem⟩
  · simp [Format.classExps, Format.classSigs]
  · simp [Format.classExps, Format.classSigs]
  · simp [Format.classExps, Format.classSigs, Format.allOnes, Nat.sub_sub, Nat.mul_assoc]

end Sys2Proof
end

section
/-! The ranges of the outputs for legal widths, and that each fits its port (40_decode.md R89, 00_scope.md R8). -/

namespace Sys2Proof

/-- What illegal widths are (40_decode.md R71). -/
theorem legal_eq_false_iff {p : Params} {fmt : Format} :
    p.legal fmt = false ↔
      fmt.ew < 1 ∨ fmt.sw < 1 ∨ within p.ewMax fmt.ew = false ∨ within p.swMax fmt.sw = false := by
  rw [Bool.eq_false_iff, Ne, legal_iff]
  simp only [not_and_or, not_le, Bool.not_eq_true]

/-- A port at least `n` bits wide carries every number of `n` bits. -/
theorem fitsUnsigned_of_within {width : Option Nat} {n v : Nat} (h : within width n = true) (hv : v < 2 ^ n) :
    fitsUnsigned width v = true := by
  cases width with
  | none => rfl
  | some w => exact (fitsUnsigned_some w v).2 (fitsUnsigned_mono hv (of_decide_eq_true h))

/-- Where a maximum bounds `n`, one more than the maximum bounds `n + 1`. -/
theorem within_map_succ {width : Option Nat} {n : Nat} (h : within width n = true) :
    within (width.map (· + 1)) (n + 1) = true := by
  cases width with
  | none => rfl
  | some w => exact decide_eq_true (Nat.succ_le_succ (of_decide_eq_true h))

end Sys2Proof

namespace Sys2Proof.Machine

variable {p : Params} {fmt : Format}

/-- The exponents of `ew` bits, counted by the bias. -/
theorem two_pow_ew_eq (hew : 1 ≤ fmt.ew) : (2 : Int) ^ fmt.ew = 2 * bias fmt + 2 := by
  obtain ⟨n, hn⟩ := Nat.exists_eq_add_of_le' hew
  rw [bias, hn, Nat.add_sub_cancel, pow_succ]
  ring

/-- The all-ones exponent is one more than twice the bias. -/
theorem allOnes_eq (hew : 1 ≤ fmt.ew) : (fmt.allOnes : Int) = 2 * bias fmt + 1 := by
  have hpow := two_pow_ew_eq hew
  rw [Format.allOnes, Nat.cast_sub (Nat.one_le_two_pow)]
  push_cast
  omega

theorem bias_nonneg (fmt : Format) : 0 ≤ bias fmt := by
  have hpos : (0 : Int) < 2 ^ (fmt.ew - 1) := by positivity
  rw [bias]
  omega

/-- The range of `exp_unb_out` for legal widths (40_decode.md R89). -/
def InExpRange (fmt : Format) (eu : Int) : Prop := 1 - bias fmt ≤ eu ∧ eu ≤ max 1 (bias fmt)

/-- The exponent port carries its range. -/
theorem fits_expUnbOut (hlegal : p.legal fmt = true) {eu : Int} (heu : InExpRange fmt eu) :
    fitsSigned p.expuW eu = true := by
  obtain ⟨hew, -, hewMax, -⟩ := (legal_iff fmt p).1 hlegal
  obtain ⟨hlo, hhi⟩ := heu
  cases p with
  | unbounded => rfl
  | bounded ewMax swMax inW =>
    have hle : fmt.ew + 1 ≤ ewMax + 1 := Nat.succ_le_succ (of_decide_eq_true hewMax)
    have hpow : (2 : Int) ^ (fmt.ew + 1) ≤ 2 ^ (ewMax + 1) := pow_le_pow_right₀ (by norm_num) hle
    rw [pow_succ, two_pow_ew_eq hew] at hpow
    have hbias := bias_nonneg fmt
    refine (fitsSigned_some (ewMax + 1) eu).2 ⟨?_, ?_⟩
    · omega
    · omega

/-- The scale port carries the range of `eu - sw`. -/
theorem fits_scaleOut (hlegal : p.legal fmt = true) {k : Int} (hlo : 1 - bias fmt - fmt.sw ≤ k)
    (hhi : k ≤ max 1 (bias fmt) - fmt.sw) : fitsSigned p.scW k = true := by
  obtain ⟨hew, hsw, hewMax, hswMax⟩ := (legal_iff fmt p).1 hlegal
  cases p with
  | unbounded => rfl
  | bounded ewMax swMax inW =>
    have hexp : (2 : Int) ^ fmt.ew ≤ 2 ^ max ewMax (bitlen swMax) :=
      pow_le_pow_right₀ (by norm_num) (le_max_of_le_left (of_decide_eq_true hewMax))
    have hsig : fmt.sw < 2 ^ max ewMax (bitlen swMax) :=
      (of_decide_eq_true hswMax : fmt.sw ≤ swMax).trans_lt
        (fitsUnsigned_mono (lt_two_pow_bitlen swMax) (le_max_right _ _))
    zify at hsig
    rw [two_pow_ew_eq hew] at hexp
    have hbias := bias_nonneg fmt
    refine (fitsSigned_some (max ewMax (bitlen swMax) + 2) k).2 ?_
    rw [pow_add]
    constructor
    · omega
    · omega

/-! The unsigned ports carry their ranges. -/

theorem fits_expFieldOut (hlegal : p.legal fmt = true) {e : Nat} (he : e < 2 ^ fmt.ew) :
    fitsUnsigned p.ewMax e = true := by
  obtain ⟨-, -, hewMax, -⟩ := (legal_iff fmt p).1 hlegal
  exact fitsUnsigned_of_within hewMax he

theorem fits_sigFieldOut (hlegal : p.legal fmt = true) {f : Nat} (hf : f < 2 ^ fmt.sw) :
    fitsUnsigned p.swMax f = true := by
  obtain ⟨-, -, -, hswMax⟩ := (legal_iff fmt p).1 hlegal
  exact fitsUnsigned_of_within hswMax hf

theorem fits_mantOut (hlegal : p.legal fmt = true) {m : Nat} (hm : m < 2 ^ (fmt.sw + 1)) :
    fitsUnsigned p.mantW m = true := by
  obtain ⟨-, -, -, hswMax⟩ := (legal_iff fmt p).1 hlegal
  exact fitsUnsigned_of_within (within_map_succ hswMax) hm

/-! ### Legal outputs are driven unchanged -/

/-- With legal widths a class without a magnitude drives the two fields as they are. -/
theorem driveSpecial_of_legal {s : State} (hlegal : s.config.params.legal fmt = true) (c : WordClass) (sign : Bit)
    {e f : Nat} (he : e < 2 ^ fmt.ew) (hf : f < 2 ^ fmt.sw) :
    s.driveSpecial c sign e f = { s with
      outputs := { Outputs.any s.config.params s.draws with
        err := 0, cls := c.code, signOut := sign, expFieldOut := e, sigFieldOut := f }
      draws := s.draws + 1 } := by
  rw [State.driveSpecial, driveUnsigned_of_fits (fits_expFieldOut hlegal he),
    driveUnsigned_of_fits (fits_sigFieldOut hlegal hf)]
  rfl

/-- With legal widths a class with a magnitude drives all its outputs as they are. -/
theorem driveFinite_of_legal {s : State} (hlegal : s.config.params.legal fmt = true) (c : WordClass) (sign : Bit)
    {e f m : Nat} {eu : Int} (he : e < 2 ^ fmt.ew) (hf : f < 2 ^ fmt.sw) (heu : InExpRange fmt eu)
    (hm : m < 2 ^ (fmt.sw + 1)) :
    s.driveFinite fmt c sign e f eu m = { s with
      outputs :=
        { err := 0, cls := c.code, signOut := sign, expFieldOut := e, sigFieldOut := f
          expUnbOut := eu, mantOut := m, scaleOut := eu - fmt.sw } } := by
  have hscale : fitsSigned s.config.params.scW (scale fmt eu) = true :=
    fits_scaleOut hlegal (Int.sub_le_sub_right heu.1 _) (Int.sub_le_sub_right heu.2 _)
  rw [State.driveFinite, driveUnsigned_of_fits (fits_expFieldOut hlegal he),
    driveUnsigned_of_fits (fits_sigFieldOut hlegal hf), driveUnsigned_of_fits (fits_mantOut hlegal hm),
    driveSigned_of_fits (fits_expUnbOut hlegal heu), driveSigned_of_fits hscale]
  rfl

/-- The exponent of a zero exponent field is in the range. -/
theorem unbiasedZeroExp_inRange (fmt : Format) : InExpRange fmt (unbiasedZeroExp fmt) := by
  have hbias := bias_nonneg fmt
  rw [InExpRange, unbiasedZeroExp]
  omega

/-- So is the exponent of a normal word; the bias is its upper bound. -/
theorem unbiasedExp_bounds (hew : 1 ≤ fmt.ew) {e : Nat} (hpos : 0 < e) (hlt : e < fmt.allOnes) :
    1 - bias fmt ≤ unbiasedExp fmt e ∧ unbiasedExp fmt e ≤ bias fmt := by
  have hones := allOnes_eq hew
  rw [unbiasedExp]
  omega

theorem unbiasedExp_inRange (hew : 1 ≤ fmt.ew) {e : Nat} (hpos : 0 < e) (hlt : e < fmt.allOnes) :
    InExpRange fmt (unbiasedExp fmt e) := by
  obtain ⟨hlo, hhi⟩ := unbiasedExp_bounds hew hpos hlt
  exact ⟨hlo, le_max_of_le_right hhi⟩

/-- The mantissa of a normal word has `sw + 1` bits. -/
theorem restoredMantissa_lt {f : Nat} (hf : f < 2 ^ fmt.sw) : restoredMantissa fmt f < 2 ^ (fmt.sw + 1) := by
  rw [restoredMantissa, pow_succ]
  omega

end Sys2Proof.Machine
end

section
/-! The class forms of DECODE, one by one (40_decode.md R78 to R82): the pattern that decodes to each, the outputs it
drives, its result. -/

namespace Sys2Proof

variable {p : Params} {fmt : Format}

/-- A pattern with legal widths decodes to the instruction of its fields. -/
theorem decodeWord_of_fields {bits e f : Nat} {sign : Bit} (hlegal : p.legal fmt = true)
    (hs : fmt.sign (fmt.word bits) = sign) (he : fmt.expField (fmt.word bits) = e)
    (hf : fmt.sigField (fmt.word bits) = f) :
    decodeWord p bits fmt.ew fmt.sw = .ok (instrOfFields fmt sign e f) := by
  subst hs he hf
  exact decodeWord_of_legal hlegal

/-- A packed word decodes to the instruction of the packed fields. -/
theorem decodeWord_pack {e f : Nat} {sign : Bit} (hlegal : p.legal fmt = true) (he : e < 2 ^ fmt.ew)
    (hf : f < 2 ^ fmt.sw) :
    decodeWord p (fmt.pack sign e f) fmt.ew fmt.sw = .ok (instrOfFields fmt sign e f) := by
  obtain ⟨hew, hsw, -, -⟩ := (legal_iff fmt p).1 hlegal
  have hword := word_pack fmt (s := sign) he hf
  exact decodeWord_of_fields hlegal (hword.symm ▸ sign_pack fmt sign he hf)
    (hword.symm ▸ expField_pack fmt hew sign he hf) (hword.symm ▸ sigField_pack fmt hsw sign hf)

theorem instrOfFields_infinity (sign : Bit) :
    instrOfFields fmt sign fmt.allOnes 0 = .decodeInfinity fmt sign := by
  rw [instrOfFields, classify_infinity]

theorem instrOfFields_nan (sign : Bit) {f : Nat} (hf : f ≠ 0) :
    instrOfFields fmt sign fmt.allOnes f = .decodeNan fmt sign f := by
  rw [instrOfFields, classify_nan fmt hf]

theorem instrOfFields_zero (hew : 1 ≤ fmt.ew) (sign : Bit) : instrOfFields fmt sign 0 0 = .decodeZero fmt sign := by
  rw [instrOfFields, classify_zero fmt hew]

theorem instrOfFields_subnormal (hew : 1 ≤ fmt.ew) (sign : Bit) {f : Nat} (hf : f ≠ 0) :
    instrOfFields fmt sign 0 f = .decodeSubnormal fmt sign f := by
  rw [instrOfFields, classify_subnormal fmt hew hf]

theorem instrOfFields_normal (sign : Bit) {e : Nat} (f : Nat) (hpos : 0 < e) (hlt : e < fmt.allOnes) :
    instrOfFields fmt sign e f = .decodeNormal fmt sign e f := by
  rw [instrOfFields, classify_normal fmt f hpos hlt]

end Sys2Proof

namespace Sys2Proof.Machine

/-! ### Results and magnitudes -/

/-- The classes with a magnitude. -/
def IsFinite (c : WordClass) : Prop := c = .zero ∨ c = .subnormal ∨ c = .normal

/-- Outputs without an error whose class has a magnitude carry a finite result. -/
theorem result_of_isFinite {o : Outputs} {c : WordClass} (herr : o.err = 0) (hcls : o.cls = c.code)
    (hc : IsFinite c) : o.result = some (.finite o.signOut o.mantOut o.scaleOut) := by
  have hcode : o.cls = WordClass.code .zero ∨ o.cls = WordClass.code .subnormal ∨
      o.cls = WordClass.code .normal := by
    simpa only [hcls, code_inj, IsFinite] using hc
  rw [Outputs.result, if_neg (by simp [herr]), if_pos hcode]

/-- Outputs without an error of class INFINITY carry the infinity of their sign. -/
theorem result_of_infinity {o : Outputs} (herr : o.err = 0) (hcls : o.cls = WordClass.code .infinity) :
    o.result = some (.inf o.signOut) := by
  simp [Outputs.result, herr, hcls, code_inj]

/-- Outputs without an error of class NAN carry the NaN of their sign. -/
theorem result_of_nan {o : Outputs} (herr : o.err = 0) (hcls : o.cls = WordClass.code .nan) :
    o.result = some (.nan o.signOut) := by
  simp [Outputs.result, herr, hcls, code_inj]

theorem magnitude_le_magnitude {m m' : Nat} {k k' : Int} (hm : m ≤ m') (hk : k ≤ k') :
    magnitude m k ≤ magnitude m' k' := by
  have hpow : pow2 k ≤ pow2 k' := by
    rw [pow2_eq_zpow, pow2_eq_zpow]
    exact zpow_le_zpow_right₀ (by norm_num) hk
  exact mul_le_mul (by exact_mod_cast hm) hpow (pow2_pos k).le (Nat.cast_nonneg m')

theorem magnitude_lt_magnitude {m m' : Nat} {k k' : Int} (hm : m < m') (hk : k ≤ k') :
    magnitude m k < magnitude m' k' :=
  calc magnitude m k
      < magnitude m' k := mul_lt_mul_of_pos_right (by exact_mod_cast hm) (pow2_pos k)
    _ ≤ magnitude m' k' := magnitude_le_magnitude le_rfl hk

/-! ### The classes without a magnitude -/

/-- What DECODE.INFINITY does with legal widths. -/
theorem exec_decodeInfinity {s : State} {fmt : Format} (hlegal : s.config.params.legal fmt = true) (sign : Bit) :
    exec (.decodeInfinity fmt sign) s = .next { s with
      outputs := { Outputs.any s.config.params s.draws with
        err := 0, cls := 3, signOut := sign, expFieldOut := fmt.allOnes, sigFieldOut := 0 }
      draws := s.draws + 1 } :=
  (validated_of_legal hlegal).trans <| congrArg _ <|
    driveSpecial_of_legal hlegal _ _ (Laws.allOnes_lt fmt) (Nat.two_pow_pos _)

/-- What DECODE.NAN does with legal widths. -/
theorem exec_decodeNan {s : State} {fmt : Format} (hlegal : s.config.params.legal fmt = true) (sign : Bit)
    {f : Nat} (hf : f < 2 ^ fmt.sw) :
    exec (.decodeNan fmt sign f) s = .next { s with
      outputs := { Outputs.any s.config.params s.draws with
        err := 0, cls := 4, signOut := sign, expFieldOut := fmt.allOnes, sigFieldOut := f }
      draws := s.draws + 1 } :=
  (validated_of_legal hlegal).trans <| congrArg _ <| driveSpecial_of_legal hlegal _ _ (Laws.allOnes_lt fmt) hf

/-- Settles O8: the fields of an infinity fit their ports, so that they are driven as they are. -/
theorem infinityClassForm : Obligations.InfinityClassForm := by
  intro s fmt sign hlegal
  refine ⟨⟨_, exec_decodeInfinity hlegal sign, result_of_infinity rfl rfl, rfl⟩, rfl, fun bits hs he hf => ?_⟩
  rw [decodeWord_of_fields hlegal hs he hf]
  exact congrArg _ (instrOfFields_infinity sign)

/-- Settles O9: the result of a NaN does not read its payload, which fits its port. -/
theorem nanClassForm : Obligations.NanClassForm := by
  intro s fmt sign f hwf
  obtain ⟨hlegal, hf0, hf⟩ : s.config.params.legal fmt = true ∧ f ≠ 0 ∧ f < 2 ^ fmt.sw := by
    simpa [Instr.wellFormed, Instr.fieldsOk] using hwf
  refine ⟨⟨_, exec_decodeNan hlegal sign hf, result_of_nan rfl rfl, rfl⟩, fun hsw => ?_, fun bits hs he hf' => ?_⟩
  · rw [hsw] at hf
    omega
  · rw [decodeWord_of_fields hlegal hs he hf']
    exact congrArg _ (instrOfFields_nan sign hf0)

/-! ### The classes with a magnitude -/

/-- What DECODE.ZERO does with legal widths. -/
theorem exec_decodeZero {s : State} {fmt : Format} (hlegal : s.config.params.legal fmt = true) (sign : Bit) :
    exec (.decodeZero fmt sign) s = .next { s with
      outputs :=
        { err := 0, cls := 0, signOut := sign, expFieldOut := 0, sigFieldOut := 0
          expUnbOut := unbiasedZeroExp fmt, mantOut := 0, scaleOut := unbiasedZeroExp fmt - fmt.sw } } :=
  (validated_of_legal hlegal).trans <| congrArg _ <|
    driveFinite_of_legal hlegal _ _ (Nat.two_pow_pos _) (Nat.two_pow_pos _) (unbiasedZeroExp_inRange fmt)
      (Nat.two_pow_pos _)

/-- What DECODE.SUBNORMAL does with legal widths. -/
theorem exec_decodeSubnormal {s : State} {fmt : Format} (hlegal : s.config.params.legal fmt = true) (sign : Bit)
    {f : Nat} (hf : f < 2 ^ fmt.sw) :
    exec (.decodeSubnormal fmt sign f) s = .next { s with
      outputs :=
        { err := 0, cls := 1, signOut := sign, expFieldOut := 0, sigFieldOut := f
          expUnbOut := unbiasedZeroExp fmt, mantOut := f, scaleOut := unbiasedZeroExp fmt - fmt.sw } } :=
  (validated_of_legal hlegal).trans <| congrArg _ <|
    driveFinite_of_legal hlegal _ _ (Nat.two_pow_pos _) hf (unbiasedZeroExp_inRange fmt)
      (fitsUnsigned_mono hf (Nat.le_succ _))

/-- What DECODE.NORMAL does with legal widths. -/
theorem exec_decodeNormal {s : State} {fmt : Format} (hlegal : s.config.params.legal fmt = true) (sign : Bit)
    {e f : Nat} (hpos : 0 < e) (hlt : e < fmt.allOnes) (hf : f < 2 ^ fmt.sw) :
    exec (.decodeNormal fmt sign e f) s = .next { s with
      outputs :=
        { err := 0, cls := 2, signOut := sign, expFieldOut := e, sigFieldOut := f
          expUnbOut := unbiasedExp fmt e, mantOut := restoredMantissa fmt f
          scaleOut := unbiasedExp fmt e - fmt.sw } } := by
  obtain ⟨hew, -⟩ := (legal_iff fmt s.config.params).1 hlegal
  exact (validated_of_legal hlegal).trans <| congrArg _ <|
    driveFinite_of_legal hlegal _ _ (hlt.trans (Laws.allOnes_lt fmt)) hf (unbiasedExp_inRange hew hpos hlt)
      (restoredMantissa_lt hf)

/-- Settles O10: zero and subnormal words share the exponent `1 - B`, so their magnitudes compare as their mantissas. -/
theorem zeroExponentClassForms : Obligations.ZeroExponentClassForms := by
  intro s fmt sign hlegal
  obtain ⟨hew, hsw, -, -⟩ := (legal_iff fmt s.config.params).1 hlegal
  have he0 : 0 < 2 ^ fmt.ew := Nat.two_pow_pos _
  have hf0 : 0 < 2 ^ fmt.sw := Nat.two_pow_pos _
  refine ⟨⟨_, exec_decodeZero hlegal sign, result_of_isFinite (c := .zero) rfl rfl (.inl rfl), rfl⟩, fun k => rfl,
    ?_, ?_, fun f hf hlt => ⟨⟨_, exec_decodeSubnormal hlegal sign hlt,
      result_of_isFinite (c := .subnormal) rfl rfl (.inr (.inl rfl)), rfl⟩, magnitude_lt_magnitude hlt le_rfl⟩,
    fun hone => ?_, fun bits hs he => ?_⟩
  · have hpack : fmt.pack 0 0 0 = 0 := by simp [Format.pack]
    rw [← hpack, decodeWord_pack hlegal he0 hf0, instrOfFields_zero hew]
  · have hpack : fmt.pack 1 0 0 = 2 ^ (fmt.ew + fmt.sw) := by simp [Format.pack]
    rw [← hpack, decodeWord_pack hlegal he0 hf0, instrOfFields_zero hew]
  · simp [hone]
  · rw [decodeWord_of_fields hlegal hs he rfl]
    split
    case isTrue hf => rw [hf, instrOfFields_zero hew]
    case isFalse hf => rw [instrOfFields_subnormal hew sign hf]

/-- The restored bit stands at position `sw`, above the significand. -/
theorem restoredMantissa_bits {fmt : Format} (hsw : 1 ≤ fmt.sw) {f : Nat} (hf : f < 2 ^ fmt.sw) :
    bitAt (f + 2 ^ fmt.sw) fmt.sw = 1 ∧ slice (f + 2 ^ fmt.sw) (fmt.sw - 1) 0 = f := by
  constructor
  · rw [bitAt, Nat.add_div_right f (Nat.two_pow_pos _), Nat.div_eq_of_lt hf]
    rfl
  · exact (sigField_eq fmt hsw _).trans (by rw [Nat.add_mod_right, Nat.mod_eq_of_lt hf])

/-- Settles O11: a normal exponent lies between 0 and all ones, so unbiased it lies in `[1 - B, B]`, and the magnitude
grows with the mantissa and the exponent. -/
theorem normalClassForm : Obligations.NormalClassForm := by
  intro s fmt sign e f hwf
  obtain ⟨hlegal, ⟨hpos, hlt⟩, hf⟩ :
      s.config.params.legal fmt = true ∧ (0 < e ∧ e < fmt.allOnes) ∧ f < 2 ^ fmt.sw := by
    simpa [Instr.wellFormed, Instr.fieldsOk, Format.allOnes] using hwf
  obtain ⟨hew, hsw, -, -⟩ := (legal_iff fmt s.config.params).1 hlegal
  obtain ⟨hlo, hhi⟩ := unbiasedExp_bounds hew hpos hlt
  obtain ⟨hbit, hlow⟩ := restoredMantissa_bits hsw hf
  have hmant : f + 2 ^ fmt.sw ≤ 2 ^ (fmt.sw + 1) - 1 := Nat.le_sub_one_of_lt (restoredMantissa_lt hf)
  have htwo : 2 ≤ fmt.ew := by
    by_contra hone
    have hew1 : fmt.ew = 1 := by omega
    rw [Format.allOnes, hew1] at hlt
    omega
  refine ⟨⟨_, exec_decodeNormal hlegal sign hpos hlt hf,
      result_of_isFinite (c := .normal) rfl rfl (.inr (.inr rfl)), rfl⟩, hbit, hlow, Nat.le_add_left _ _, hmant,
    hlo, hhi, magnitude_le_magnitude hmant (Int.sub_le_sub_right hhi _), htwo, fun bits hs he hf' => ?_⟩
  rw [decodeWord_of_fields hlegal hs he hf', instrOfFields_normal sign f hpos hlt]

end Sys2Proof.Machine
end

section
/-! What a held operation does (40_decode.md R70, R71): the error where the widths are illegal; else the outputs of the
consulted word, which has a magnitude just when its exponent is not all ones. -/

namespace Sys2Proof

open Machine

variable {fmt : Format} {w : Nat}

/-- The unbiased exponent of a word with a magnitude (40_decode.md R80, R82). -/
def Format.expUnb (fmt : Format) (w : Nat) : Int :=
  if fmt.expField w = 0 then unbiasedZeroExp fmt else unbiasedExp fmt (fmt.expField w)

/-- The mantissa of a word with a magnitude (40_decode.md R80, R82). -/
def Format.mantissa (fmt : Format) (w : Nat) : Nat :=
  if fmt.expField w = 0 then fmt.sigField w else restoredMantissa fmt (fmt.sigField w)

/-- The class of a word (40_decode.md R77). -/
def Format.wordClass (fmt : Format) (w : Nat) : WordClass := classify fmt (fmt.expField w) (fmt.sigField w)

/-- The outputs of a word with a magnitude. -/
def Format.finiteOutputs (fmt : Format) (w : Nat) : Outputs where
  err := 0
  cls := (fmt.wordClass w).code
  signOut := fmt.sign w
  expFieldOut := fmt.expField w
  sigFieldOut := fmt.sigField w
  expUnbOut := fmt.expUnb w
  mantOut := fmt.mantissa w
  scaleOut := fmt.expUnb w - fmt.sw

/-- The outputs of a word without a magnitude; the other three ports keep what `free` gives them. -/
def Format.specialOutputs (fmt : Format) (w : Nat) (free : Outputs) : Outputs :=
  { free with
    err := 0
    cls := (fmt.wordClass w).code
    signOut := fmt.sign w
    expFieldOut := fmt.expField w
    sigFieldOut := fmt.sigField w }

/-- A word with the all-ones exponent is an infinity or a NaN. -/
theorem wordClass_of_allOnes (he : fmt.expField w = fmt.allOnes) :
    fmt.wordClass w = if fmt.sigField w = 0 then .infinity else .nan := by
  rw [Format.wordClass, he]
  split
  case isTrue hf => rw [hf, classify_infinity]
  case isFalse hf => exact classify_nan fmt hf

/-- A word with any other exponent is a zero, a subnormal or a normal word. -/
theorem wordClass_of_ne_allOnes (he : fmt.expField w ≠ fmt.allOnes) :
    fmt.wordClass w =
      if fmt.expField w = 0 then (if fmt.sigField w = 0 then .zero else .subnormal) else .normal :=
  (if_neg (fun h => he h.1)).trans (if_neg (fun h => he h.1))

/-- A word has a magnitude just when its exponent is not all ones. -/
theorem isFinite_wordClass_iff : IsFinite (fmt.wordClass w) ↔ fmt.expField w ≠ fmt.allOnes := by
  constructor
  · intro hfin he
    rw [wordClass_of_allOnes he, IsFinite] at hfin
    split at hfin <;> simp at hfin
  · intro he
    rw [wordClass_of_ne_allOnes he]
    split
    · split
      · exact .inl rfl
      · exact .inr (.inl rfl)
    · exact .inr (.inr rfl)

theorem expField_lt_allOnes (hew : 1 ≤ fmt.ew) (he : fmt.expField w ≠ fmt.allOnes) : fmt.expField w < fmt.allOnes :=
  lt_of_le_of_ne (Nat.le_sub_one_of_lt (expField_lt fmt hew w)) he

/-- The code of a class tells the condition that the fields of the word meet. -/
theorem classCondition_of_code (hew : 1 ≤ fmt.ew) {c : WordClass} (hcode : (fmt.wordClass w).code = c.code) :
    fmt.classCondition (fmt.expField w) (fmt.sigField w) c :=
  (classify_eq_iff hew (expField_lt fmt hew w) c).1 (code_inj.1 hcode)

/-- The exponent of a word with a magnitude is in the range of `exp_unb_out`. -/
theorem expUnb_inRange (hew : 1 ≤ fmt.ew) (he : fmt.expField w ≠ fmt.allOnes) : InExpRange fmt (fmt.expUnb w) := by
  rw [Format.expUnb]
  split
  case isTrue => exact unbiasedZeroExp_inRange fmt
  case isFalse h0 => exact unbiasedExp_inRange hew (Nat.pos_of_ne_zero h0) (expField_lt_allOnes hew he)

theorem mantissa_lt (hsw : 1 ≤ fmt.sw) (w : Nat) : fmt.mantissa w < 2 ^ (fmt.sw + 1) := by
  have hf := sigField_lt fmt hsw w
  rw [Format.mantissa]
  split
  · exact fitsUnsigned_mono hf (Nat.le_succ _)
  · exact restoredMantissa_lt hf

/-- Outputs without an error have a magnitude just when their class has. -/
theorem hasMagnitude_iff {o : Outputs} {c : WordClass} (herr : o.err = 0) (hcls : o.cls = c.code) :
    hasMagnitude o = true ↔ IsFinite c := by
  simp [hasMagnitude, herr, hcls, clsFlag, code_inj, errNone, IsFinite, or_assoc]

theorem hasMagnitude_finiteOutputs (he : fmt.expField w ≠ fmt.allOnes) :
    hasMagnitude (fmt.finiteOutputs w) = true :=
  (hasMagnitude_iff rfl rfl).2 (isFinite_wordClass_iff.2 he)

theorem hasMagnitude_specialOutputs (he : fmt.expField w = fmt.allOnes) (free : Outputs) :
    hasMagnitude (fmt.specialOutputs w free) = false := by
  rw [Bool.eq_false_iff, Ne, hasMagnitude_iff (c := fmt.wordClass w) rfl rfl, isFinite_wordClass_iff]
  exact not_not_intro he

theorem result_finiteOutputs (he : fmt.expField w ≠ fmt.allOnes) :
    (fmt.finiteOutputs w).result = some (.finite (fmt.sign w) (fmt.mantissa w) (fmt.expUnb w - fmt.sw)) :=
  result_of_isFinite rfl rfl (isFinite_wordClass_iff.2 he)

theorem result_specialOutputs (he : fmt.expField w = fmt.allOnes) (free : Outputs) :
    (fmt.specialOutputs w free).result =
      some (if fmt.sigField w = 0 then .inf (fmt.sign w) else .nan (fmt.sign w)) := by
  have hclass := wordClass_of_allOnes he
  split
  case isTrue hf =>
    rw [if_pos hf] at hclass
    exact result_of_infinity rfl (congrArg WordClass.code hclass)
  case isFalse hf =>
    rw [if_neg hf] at hclass
    exact result_of_nan rfl (congrArg WordClass.code hclass)

end Sys2Proof

namespace Sys2Proof.Machine

variable {s : State} {fmt : Format} {w : Nat}

/-- A word with a magnitude drives the outputs of its zero, subnormal or normal class. -/
theorem exec_of_finite (hlegal : s.config.params.legal fmt = true) (he : fmt.expField w ≠ fmt.allOnes) :
    exec (instrOfFields fmt (fmt.sign w) (fmt.expField w) (fmt.sigField w)) s =
      .next { s with outputs := fmt.finiteOutputs w } := by
  obtain ⟨hew, hsw, -, -⟩ := (legal_iff fmt s.config.params).1 hlegal
  have hf := sigField_lt fmt hsw w
  rw [Format.finiteOutputs, Format.expUnb, Format.mantissa, wordClass_of_ne_allOnes he]
  by_cases h0 : fmt.expField w = 0
  · rw [if_pos h0, if_pos h0, if_pos h0, h0]
    by_cases hf0 : fmt.sigField w = 0
    · rw [if_pos hf0, hf0, instrOfFields_zero hew, exec_decodeZero hlegal]
      rfl
    · rw [if_neg hf0, instrOfFields_subnormal hew _ hf0, exec_decodeSubnormal hlegal _ hf]
      rfl
  · have hpos := Nat.pos_of_ne_zero h0
    have hlt := expField_lt_allOnes hew he
    rw [if_neg h0, if_neg h0, if_neg h0, instrOfFields_normal _ _ hpos hlt,
      exec_decodeNormal hlegal _ hpos hlt hf]
    rfl

/-- A word without a magnitude drives the outputs of its infinity or NaN class. -/
theorem exec_of_special (hlegal : s.config.params.legal fmt = true) (he : fmt.expField w = fmt.allOnes) :
    exec (instrOfFields fmt (fmt.sign w) (fmt.expField w) (fmt.sigField w)) s =
      .next { s with
        outputs := fmt.specialOutputs w (Outputs.any s.config.params s.draws)
        draws := s.draws + 1 } := by
  obtain ⟨-, hsw, -, -⟩ := (legal_iff fmt s.config.params).1 hlegal
  rw [Format.specialOutputs, wordClass_of_allOnes he, he]
  split
  case isTrue hf =>
    rw [hf, instrOfFields_infinity, exec_decodeInfinity hlegal]
    rfl
  case isFalse hf =>
    rw [instrOfFields_nan _ hf, exec_decodeNan hlegal _ (sigField_lt fmt hsw w)]
    rfl

/-- Everything a ready operation can do: it drives the outputs of its word, with a magnitude or without. -/
theorem step_cases_of_ready (h : s.Ready) :
    (s.nextFormat.expField s.nextWord ≠ s.nextFormat.allOnes ∧
      step s = .next { s.present with outputs := s.nextFormat.finiteOutputs s.nextWord }) ∨
    (s.nextFormat.expField s.nextWord = s.nextFormat.allOnes ∧
      step s = .next { s.present with
        outputs := s.nextFormat.specialOutputs s.nextWord (Outputs.any s.present.config.params s.present.draws)
        draws := s.present.draws + 1 }) := by
  have hlegal : s.present.config.params.legal s.nextFormat = true := by
    rw [present_config]
    exact h.2
  rw [step_of_ready h]
  by_cases he : s.nextFormat.expField s.nextWord = s.nextFormat.allOnes
  · exact .inr ⟨he, exec_of_special hlegal he⟩
  · exact .inl ⟨he, exec_of_finite hlegal he⟩

/-- A held operation with illegal widths raises the error. -/
theorem step_of_illegal (hheld : s.Held) (hillegal : s.config.params.legal s.nextFormat = false) :
    step s = .next s.present.raiseInvalidParameter := by
  have hdec := decodeWord_of_illegal (bits := s.present.inputs.bitsIn) hillegal
  unfold State.Held at hheld
  simp only [step, State.sample, hheld, if_true, present_config, hdec]

/-- Settles O24: the result is a finite number, or an infinity or a NaN by the significand. -/
theorem everyPatternHasAResult : Obligations.EveryPatternHasAResult := by
  intro s hready
  rcases step_cases_of_ready hready with ⟨he, hstep⟩ | ⟨he, hstep⟩
  · exact ⟨_, hstep, rfl, _, .inr (.inr ⟨_, _, result_finiteOutputs he⟩)⟩
  · have hresult := result_specialOutputs he (Outputs.any s.present.config.params s.present.draws)
    by_cases hf : s.nextFormat.sigField s.nextWord = 0
    · rw [if_pos hf] at hresult
      exact ⟨_, hstep, rfl, _, .inl hresult⟩
    · rw [if_neg hf] at hresult
      exact ⟨_, hstep, rfl, _, .inr (.inl hresult)⟩

/-- Settles O3: the two clauses are the decoder's two answers on the widths. -/
theorem illegalWidthsRaiseInvalidParameter : Obligations.IllegalWidthsRaiseInvalidParameter := by
  intro s hheld
  rw [← legal_eq_false_iff]
  refine ⟨fun hillegal => ?_, fun hlegal => ?_⟩
  · refine ⟨_, step_of_illegal hheld hillegal, rfl, ?_⟩
    rw [← present_config s, ← present_draws s]
    rfl
  · obtain ⟨t, hstep, herr, sign, hinf | hnan | ⟨m, k, hfin⟩⟩ :=
      everyPatternHasAResult s ⟨hheld, Bool.eq_true_of_not_eq_false hlegal⟩
    · exact ⟨t, hstep, herr, _, hinf, Result.noConfusion⟩
    · exact ⟨t, hstep, herr, _, hnan, Result.noConfusion⟩
    · exact ⟨t, hstep, herr, _, hfin, Result.noConfusion⟩

/-! ### Statements about the outputs of a ready operation -/

/-- The word with the sign bit alone is a zero of sign 1. -/
theorem fields_of_sign_bit (hew : 1 ≤ fmt.ew) (hsw : 1 ≤ fmt.sw) :
    fmt.sign (2 ^ (fmt.ew + fmt.sw)) = 1 ∧ fmt.expField (2 ^ (fmt.ew + fmt.sw)) = 0 ∧
      fmt.sigField (2 ^ (fmt.ew + fmt.sw)) = 0 := by
  have hpack : fmt.pack 1 0 0 = 2 ^ (fmt.ew + fmt.sw) := by simp [Format.pack]
  have he := Nat.two_pow_pos fmt.ew
  have hf := Nat.two_pow_pos fmt.sw
  rw [← hpack]
  exact ⟨sign_pack fmt 1 he hf, expField_pack fmt hew 1 he hf, sigField_pack fmt hsw 1 hf⟩

/-- Settles O27: every class drives the sign of the word, and the word with the sign bit alone is finite. -/
theorem signIsKeptApart : Obligations.SignIsKeptApart := by
  refine ⟨fun s hready => ?_, fun k => ⟨rfl, rfl⟩⟩
  obtain ⟨hew, hsw, -, -⟩ := (legal_iff _ _).1 hready.2
  obtain ⟨hsign, hexp, hsig⟩ := fields_of_sign_bit hew hsw
  rcases step_cases_of_ready hready with ⟨he, hstep⟩ | ⟨he, hstep⟩
  · refine ⟨_, hstep, rfl, fun hw =>
      ⟨s.nextFormat.expUnb s.nextWord - s.nextFormat.sw, (result_finiteOutputs he).trans ?_⟩⟩
    rw [hw, hsign, Format.mantissa, if_pos hexp, hsig]
  · refine ⟨_, hstep, rfl, fun hw => ?_⟩
    rw [hw, hexp] at he
    exact absurd he (allOnes_pos _ hew).ne

/-- A nonzero finite result denotes its sign times its mantissa over a power of two (40_decode.md R83). -/
theorem denoted_finite_of_ne_zero (sign : Bit) {m : Nat} (hm : m ≠ 0) (k : Int) :
    denoted (.finite sign m k) = .rational ((-1) ^ sign.toNat * ((m : Rat) / (2 : Rat) ^ (-k))) := by
  have hmag : magnitude m k = (m : Rat) / (2 : Rat) ^ (-k) := by
    rw [magnitude, pow2_eq_zpow, zpow_neg, div_inv_eq_mul]
  rw [denoted, if_neg hm, hmag]
  rcases BitVec.eq_zero_or_eq_one sign with rfl | rfl
  · simp
  · simp

/-- Settles O28: the scale is driven as `eu - sw`, and what the result denotes is a fact about results alone. -/
theorem finiteResultDenotesSourceFormula : Obligations.FiniteResultDenotesSourceFormula := by
  intro s hready
  rcases step_cases_of_ready hready with ⟨he, hstep⟩ | ⟨he, hstep⟩
  · refine ⟨_, hstep, fun _ => ⟨rfl, result_finiteOutputs he, fun hm => ?_, fun hm => ?_⟩⟩
    · rw [denoted_finite_of_ne_zero _ hm]
      exact congrArg (fun d : Int => Denoted.rational (_ * (_ / (2 : Rat) ^ d))) (neg_sub _ _)
    · rw [hm]
      rfl
  · exact ⟨_, hstep, fun hmag => Bool.noConfusion (hmag.symm.trans (hasMagnitude_specialOutputs he _))⟩

/-- Settles O29: the fields, the mantissa and the exponent have their bounds by the word, the scale by the exponent. -/
theorem outputsStayInTheirRanges : Obligations.OutputsStayInTheirRanges := by
  refine ⟨fun s hready => ?_, fun p fmt hlegal => ?_⟩
  · obtain ⟨hew, hsw, -, -⟩ := (legal_iff _ _).1 hready.2
    have hexp := Nat.le_sub_one_of_lt (expField_lt s.nextFormat hew s.nextWord)
    have hsig := Nat.le_sub_one_of_lt (sigField_lt s.nextFormat hsw s.nextWord)
    rcases step_cases_of_ready hready with ⟨he, hstep⟩ | ⟨he, hstep⟩
    · obtain ⟨hlo, hhi⟩ := expUnb_inRange hew he
      exact ⟨_, hstep, hexp, hsig, fun _ => ⟨Nat.le_sub_one_of_lt (mantissa_lt hsw _), hlo, hhi,
        Int.sub_le_sub_right hlo _, Int.sub_le_sub_right hhi _⟩⟩
    · exact ⟨_, hstep, hexp, hsig, fun hmag =>
        Bool.noConfusion (hmag.symm.trans (hasMagnitude_specialOutputs he _))⟩
  · have hlt {n v : Nat} (h : v ≤ 2 ^ n - 1) : v < 2 ^ n := Nat.lt_of_le_pred (Nat.two_pow_pos n) h
    exact ⟨fun e he => fits_expFieldOut hlegal (hlt he), fun f hf => fits_sigFieldOut hlegal (hlt hf),
      fun m hm => fits_mantOut hlegal (hlt hm), fun eu hlo hhi => fits_expUnbOut hlegal ⟨hlo, hhi⟩,
      fun k hlo hhi => fits_scaleOut hlegal hlo hhi⟩

/-- Settles O31: with one exponent bit the all-ones exponent is 1, so an exponent is 0 or all ones. -/
theorem oneExponentBitHasNoNormals : Obligations.OneExponentBitHasNoNormals := by
  intro s hready hone
  obtain ⟨hew, -, -, -⟩ := (legal_iff _ _).1 hready.2
  have hbias : bias s.nextFormat = 0 := by simp [bias, hone]
  have hones : s.nextFormat.allOnes = 1 := by simp [Format.allOnes, hone]
  have hexp := expField_lt s.nextFormat hew s.nextWord
  have hclass : (s.nextFormat.wordClass s.nextWord).code ≠ 2 := by
    intro hcode
    obtain ⟨hpos, hlt⟩ := classCondition_of_code hew (c := .normal) hcode
    omega
  rcases step_cases_of_ready hready with ⟨he, hstep⟩ | ⟨he, hstep⟩
  · have h0 : s.nextFormat.expField s.nextWord = 0 := by
      rw [hone] at hexp
      omega
    have heu : s.nextFormat.expUnb s.nextWord = 1 := by rw [Format.expUnb, if_pos h0, unbiasedZeroExp, hbias]; rfl
    have hm : s.nextFormat.mantissa s.nextWord = s.nextFormat.sigField s.nextWord := if_pos h0
    have hresult := result_finiteOutputs he
    rw [heu, hm] at hresult
    exact ⟨_, hstep, hclass, hbias, fun _ => ⟨hresult, heu⟩, fun hne => absurd h0 hne, fun hne => absurd h0 hne⟩
  · have hresult := result_specialOutputs he (Outputs.any s.present.config.params s.present.draws)
    exact ⟨_, hstep, hclass, hbias, fun h0 => by omega, fun _ hf => hresult.trans (by rw [if_pos hf]),
      fun _ hf => hresult.trans (by rw [if_neg hf])⟩

/-- Settles O32: the class code gives the condition on the fields, and a significand of one bit is 0 or 1. -/
theorem oneSignificandBitMantissas : Obligations.OneSignificandBitMantissas := by
  intro s hready hone
  obtain ⟨hew, hsw, -, -⟩ := (legal_iff _ _).1 hready.2
  have hsig := sigField_lt s.nextFormat hsw s.nextWord
  rw [hone] at hsig
  rcases step_cases_of_ready hready with ⟨he, hstep⟩ | ⟨he, hstep⟩
  · refine ⟨_, hstep, fun hcls => ?_, fun hcls => ?_, fun hcls => ?_⟩
    · obtain ⟨hpos, -⟩ := classCondition_of_code hew (c := .normal) hcls
      have hm : s.nextFormat.mantissa s.nextWord = s.nextFormat.sigField s.nextWord + 2 := by
        rw [Format.mantissa, if_neg hpos.ne', restoredMantissa, hone, pow_one]
      change s.nextFormat.mantissa s.nextWord = 2 ∨ s.nextFormat.mantissa s.nextWord = 3
      omega
    · obtain ⟨h0, hf0⟩ := classCondition_of_code hew (c := .subnormal) hcls
      have hm : s.nextFormat.mantissa s.nextWord = s.nextFormat.sigField s.nextWord := if_pos h0
      change s.nextFormat.mantissa s.nextWord = 1
      omega
    · obtain ⟨hones, -⟩ := classCondition_of_code hew (c := .nan) hcls
      exact absurd hones he
  · refine ⟨_, hstep, fun hcls => ?_, fun hcls => ?_, fun hcls => ?_⟩
    · obtain ⟨-, hlt⟩ := classCondition_of_code hew (c := .normal) hcls
      omega
    · obtain ⟨h0, -⟩ := classCondition_of_code hew (c := .subnormal) hcls
      have hpos := allOnes_pos s.nextFormat hew
      omega
    · obtain ⟨-, hf0⟩ := classCondition_of_code hew (c := .nan) hcls
      change s.nextFormat.sigField s.nextWord = 1
      omega

end Sys2Proof.Machine
end

section
/-! The step and the pseudocode of 40_decode.md R70: both answer the error on illegal widths, and on legal ones both
read the result and the defined outputs from the consulted word. -/

namespace Sys2Proof.Machine

variable {p : Params} {fmt : Format} {bits w : Nat}

/-! ### What the pseudocode gives -/

theorem decodePseudocode_of_illegal (hillegal : p.legal fmt = false) :
    decodePseudocode p bits fmt.ew fmt.sw = (.invalidParameter, ⟨1, none, none, none, none, none, none, none⟩) :=
  if_pos (legal_eq_false_iff.1 hillegal)

/-- Outputs with a magnitude are all defined. -/
theorem definedPorts_finiteOutputs (he : fmt.expField w ≠ fmt.allOnes) :
    definedPorts (fmt.finiteOutputs w) =
      ⟨0, some (fmt.wordClass w).code, some (fmt.sign w), some (fmt.expField w), some (fmt.sigField w),
        some (fmt.expUnb w), some (fmt.mantissa w), some (fmt.expUnb w - fmt.sw)⟩ := by
  simp only [definedPorts, hasMagnitude_finiteOutputs he, if_true]
  rfl

/-- Outputs without a magnitude are defined but for the three ports that are left free. -/
theorem definedPorts_specialOutputs (he : fmt.expField w = fmt.allOnes) (free : Outputs) :
    definedPorts (fmt.specialOutputs w free) =
      ⟨0, some (fmt.wordClass w).code, some (fmt.sign w), some (fmt.expField w), some (fmt.sigField w),
        none, none, none⟩ := by
  simp only [definedPorts, hasMagnitude_specialOutputs he, Bool.false_eq_true, if_false]
  rfl

/-- On a word with a magnitude the pseudocode gives its finite result and all its outputs. -/
theorem decodePseudocode_of_finite (hlegal : p.legal fmt = true) (hw : fmt.word bits = w)
    (he : fmt.expField w ≠ fmt.allOnes) :
    decodePseudocode p bits fmt.ew fmt.sw =
      (.finite (fmt.sign w) (fmt.mantissa w) (fmt.expUnb w - fmt.sw), definedPorts (fmt.finiteOutputs w)) := by
  subst hw
  have hnotIllegal := mt legal_eq_false_iff.2 (ne_false_of_eq_true hlegal)
  rw [definedPorts_finiteOutputs he, Format.expUnb, Format.mantissa, wordClass_of_ne_allOnes he]
  refine (if_neg hnotIllegal).trans ((if_neg fun h => he h.1).trans ((if_neg fun h => he h.1).trans ?_))
  by_cases h0 : fmt.expField (fmt.word bits) = 0
  · rw [if_pos h0, if_pos h0, if_pos h0, apply_ite WordClass.code]
    exact if_pos h0
  · rw [if_neg h0, if_neg h0, if_neg h0]
    exact if_neg h0

/-- On a word without a magnitude it gives the infinity or the NaN, and leaves three outputs open. -/
theorem decodePseudocode_of_special (hlegal : p.legal fmt = true) (hw : fmt.word bits = w)
    (he : fmt.expField w = fmt.allOnes) (free : Outputs) :
    decodePseudocode p bits fmt.ew fmt.sw =
      (if fmt.sigField w = 0 then .inf (fmt.sign w) else .nan (fmt.sign w),
        definedPorts (fmt.specialOutputs w free)) := by
  subst hw
  have hnotIllegal := mt legal_eq_false_iff.2 (ne_false_of_eq_true hlegal)
  rw [definedPorts_specialOutputs he, wordClass_of_allOnes he]
  refine (if_neg hnotIllegal).trans ?_
  by_cases hf : fmt.sigField (fmt.word bits) = 0
  · rw [if_pos hf, if_pos hf]
    exact if_pos ⟨he, hf⟩
  · rw [if_neg hf, if_neg hf]
    exact (if_neg fun h => hf h.2).trans (if_pos ⟨he, hf⟩)

/-- The pseudocode reads the word of the pattern alone (40_decode.md R72). -/
theorem decodePseudocode_word : decodePseudocode p (fmt.word bits) fmt.ew fmt.sw
    = decodePseudocode p bits fmt.ew fmt.sw := by
  have hword : fmt.word bits % 2 ^ (1 + fmt.ew + fmt.sw) = bits % 2 ^ (1 + fmt.ew + fmt.sw) := Nat.mod_mod _ _
  unfold decodePseudocode
  rw [hword]

/-! ### The step computes it -/

/-- Settles O20: on illegal widths and on words with and without a magnitude, step and pseudocode agree. -/
theorem stepComputesThePseudocode : Obligations.StepComputesThePseudocode := by
  intro s hheld
  cases hlegal : s.config.params.legal s.nextFormat with
  | false =>
    refine ⟨_, step_of_illegal hheld hlegal, ?_⟩
    rw [decodePseudocode_of_illegal hlegal]
    exact ⟨rfl, rfl, present_config s, rfl, present_pending s⟩
  | true =>
    rcases step_cases_of_ready ⟨hheld, hlegal⟩ with ⟨he, hstep⟩ | ⟨he, hstep⟩
    · refine ⟨_, hstep, ?_⟩
      rw [decodePseudocode_of_finite hlegal rfl he]
      exact ⟨result_finiteOutputs he, rfl, present_config s, rfl, present_pending s⟩
    · refine ⟨_, hstep, ?_⟩
      rw [decodePseudocode_of_special hlegal rfl he (Outputs.any s.present.config.params s.present.draws)]
      exact ⟨result_specialOutputs he _, rfl, present_config s, rfl, present_pending s⟩

/-- Settles O22: both states step to what the pseudocode gives, and the pseudocode reads the word alone. -/
theorem definedOutputsDependOnOperationAlone : Obligations.DefinedOutputsDependOnOperationAlone := by
  intro s s' hparams hheld hheld' hformat hword
  obtain ⟨t, hstep, hresult, hports, -⟩ := stepComputesThePseudocode s hheld
  obtain ⟨t', hstep', hresult', hports', -⟩ := stepComputesThePseudocode s' hheld'
  have hsame : decodePseudocode s.config.params s.present.inputs.bitsIn s.nextFormat.ew s.nextFormat.sw
      = decodePseudocode s'.config.params s'.present.inputs.bitsIn s'.nextFormat.ew s'.nextFormat.sw :=
    calc _ = decodePseudocode s.config.params s.nextWord s.nextFormat.ew s.nextFormat.sw := decodePseudocode_word.symm
      _ = decodePseudocode s'.config.params s'.nextWord s'.nextFormat.ew s'.nextFormat.sw := by
        rw [hparams, hformat, hword]
      _ = _ := decodePseudocode_word
  exact ⟨t, t', hstep, hstep', by rw [hports, hsame, hports'], by rw [hresult, hsame, hresult']⟩

end Sys2Proof.Machine
end

section
/-! The order of the magnitudes (40_decode.md R90): a larger word of the same sign has a larger exponent field, or the
same and a larger significand; the next exponent doubles the scale, and the implicit bit keeps the mantissa above half
of every mantissa of the exponent before. -/

namespace Sys2Proof.Machine

variable {fmt : Format} {w w' : Nat}

/-- Words of one sign are ordered by exponent field, then by significand. -/
theorem fields_lt_of_word_lt (hew : 1 ≤ fmt.ew) (hsw : 1 ≤ fmt.sw) (hw : w < 2 ^ fmt.wordBits)
    (hw' : w' < 2 ^ fmt.wordBits) (hsign : fmt.sign w = fmt.sign w') (hlt : w < w') :
    fmt.expField w < fmt.expField w' ∨ fmt.expField w = fmt.expField w' ∧ fmt.sigField w < fmt.sigField w' := by
  have hf' := sigField_lt fmt hsw w'
  have hpack : fmt.expField w * 2 ^ fmt.sw + fmt.sigField w < fmt.expField w' * 2 ^ fmt.sw + fmt.sigField w' := by
    rw [← pack_fields fmt hew hsw hw, ← pack_fields fmt hew hsw hw', hsign, Format.pack, Format.pack] at hlt
    omega
  rcases lt_trichotomy (fmt.expField w) (fmt.expField w') with he | he | he
  · exact .inl he
  · rw [he] at hpack
    exact .inr ⟨he, by omega⟩
  · have hmul := Nat.mul_le_mul_right (2 ^ fmt.sw) (Nat.succ_le_of_lt he)
    rw [Nat.succ_mul] at hmul
    omega

/-- A larger exponent field gives a larger magnitude, whatever the significands are. -/
theorem magnitude_lt_of_expField_lt (hsw : 1 ≤ fmt.sw) (he : fmt.expField w < fmt.expField w') :
    magnitude (fmt.mantissa w) (fmt.expUnb w - fmt.sw) < magnitude (fmt.mantissa w') (fmt.expUnb w' - fmt.sw) := by
  have hf := sigField_lt fmt hsw w
  have h0' : fmt.expField w' ≠ 0 := by omega
  have hm' : 2 ^ fmt.sw ≤ fmt.mantissa w' := by
    rw [Format.mantissa, if_neg h0', restoredMantissa]
    exact Nat.le_add_left _ _
  have heu' : fmt.expUnb w' = fmt.expField w' - bias fmt := if_neg h0'
  by_cases h0 : fmt.expField w = 0
  · have hm : fmt.mantissa w = fmt.sigField w := if_pos h0
    have heu : fmt.expUnb w = 1 - bias fmt := if_pos h0
    exact magnitude_lt_magnitude (by omega) (by omega)
  · have hm : fmt.mantissa w < 2 * fmt.mantissa w' := by
      have hlt := mantissa_lt hsw w
      rw [pow_succ] at hlt
      omega
    have heu : fmt.expUnb w = fmt.expField w - bias fmt := if_neg h0
    calc magnitude (fmt.mantissa w) (fmt.expUnb w - fmt.sw)
        < magnitude (2 * fmt.mantissa w') (fmt.expUnb w - fmt.sw) := magnitude_lt_magnitude hm le_rfl
      _ = magnitude (fmt.mantissa w') (1 + (fmt.expUnb w - fmt.sw)) := by
          rw [magnitude, magnitude, pow2_add, show pow2 1 = 2 from rfl]
          push_cast
          ring
      _ ≤ magnitude (fmt.mantissa w') (fmt.expUnb w' - fmt.sw) := magnitude_le_magnitude le_rfl (by omega)

/-- With the same exponent field the magnitudes are ordered as the significands. -/
theorem magnitude_lt_of_sigField_lt (he : fmt.expField w = fmt.expField w')
    (hf : fmt.sigField w < fmt.sigField w') :
    magnitude (fmt.mantissa w) (fmt.expUnb w - fmt.sw) < magnitude (fmt.mantissa w') (fmt.expUnb w' - fmt.sw) := by
  have heu : fmt.expUnb w = fmt.expUnb w' := by rw [Format.expUnb, Format.expUnb, he]
  have hm : fmt.mantissa w < fmt.mantissa w' := by
    rw [Format.mantissa, Format.mantissa, he]
    split
    · exact hf
    · exact Nat.add_lt_add_right hf _
  exact magnitude_lt_magnitude hm (by rw [heu])

/-- A ready operation with a finite result has that of its word. -/
theorem finite_result_of_ready {s t : State} {sign : Bit} {m : Nat} {k : Int} (hready : s.Ready)
    (hstep : step s = .next t) (hresult : t.result = some (.finite sign m k)) :
    sign = s.nextFormat.sign s.nextWord ∧ m = s.nextFormat.mantissa s.nextWord ∧
      k = s.nextFormat.expUnb s.nextWord - s.nextFormat.sw := by
  rcases step_cases_of_ready hready with ⟨he, hstep'⟩ | ⟨he, hstep'⟩
  · obtain rfl : t = _ := Host.Outcome.next.inj (hstep.symm.trans hstep')
    obtain ⟨hs, hm, hk⟩ := Result.finite.inj (Option.some.inj (hresult.symm.trans (result_finiteOutputs he)))
    exact ⟨hs, hm, hk⟩
  · obtain rfl : t = _ := Host.Outcome.next.inj (hstep.symm.trans hstep')
    have hspecial := Option.some.inj (hresult.symm.trans (result_specialOutputs he _))
    split at hspecial
    · cases hspecial
    · cases hspecial

/-- Settles O30: the larger word has the larger exponent field, or the same and the larger significand. -/
theorem magnitudeGrowsWithTheWord : Obligations.MagnitudeGrowsWithTheWord := by
  intro s s' t t' sign m m' k k' hready hready' hformat hword hstep hstep' hresult hresult'
  obtain ⟨hew, hsw, -, -⟩ := (legal_iff _ _).1 hready.2
  obtain ⟨hsign, rfl, rfl⟩ := finite_result_of_ready hready hstep hresult
  obtain ⟨hsign', rfl, rfl⟩ := finite_result_of_ready hready' hstep' hresult'
  have hw : s.nextWord < 2 ^ s.nextFormat.wordBits := word_lt _ _
  have hw' : s'.nextWord < 2 ^ s'.nextFormat.wordBits := word_lt _ _
  rw [← hformat] at hsign' hw' ⊢
  rcases fields_lt_of_word_lt hew hsw hw hw' (hsign.symm.trans hsign') hword with he | ⟨he, hf⟩
  · exact magnitude_lt_of_expField_lt hsw he
  · exact magnitude_lt_of_sigField_lt he hf

end Sys2Proof.Machine
end

section
/-! Bit lengths and magnitudes: how they change under a shift of the number by whole bits, and that an odd part and its
exponent are determined by the value. -/

namespace Sys2Proof

/-- `bitlen` is the library's size in bits. -/
theorem bitlen_eq_size (n : Nat) : bitlen n = n.size := by
  rcases Nat.eq_zero_or_pos n with rfl | hpos
  · rfl
  · have hle : n.size ≤ bitlen n := Nat.size_le.2 (lt_two_pow_bitlen n)
    have hlt : bitlen n - 1 < n.size := Nat.lt_size.2 (two_pow_le_of_bitlen hpos.ne')
    omega

theorem bitlen_le_iff {n d : Nat} : bitlen n ≤ d ↔ n < 2 ^ d := by rw [bitlen_eq_size, Nat.size_le]

theorem lt_bitlen_iff {n d : Nat} : d < bitlen n ↔ 2 ^ d ≤ n := by rw [bitlen_eq_size, Nat.lt_size]

/-- Each factor 2 adds one bit. -/
theorem bitlen_mul_two_pow {n : Nat} (hn : n ≠ 0) (d : Nat) : bitlen (n * 2 ^ d) = bitlen n + d := by
  rw [bitlen_eq_size, bitlen_eq_size, ← Nat.shiftLeft_eq, Nat.size_shiftLeft hn]

end Sys2Proof

namespace Sys2Proof.Machine

variable {m n : Nat} {k u : Int}

theorem magnitude_eq_zero_iff : magnitude m k = 0 ↔ m = 0 := by
  simp [magnitude, (pow2_pos k).ne']

/-- With one scale the magnitude determines the number of units. -/
theorem magnitude_left_inj : magnitude m k = magnitude n k ↔ m = n := by
  simp [magnitude, (pow2_pos k).ne']

/-- Factors 2 of the mantissa can be counted in the scale. -/
theorem magnitude_mul_two_pow (n d : Nat) (u : Int) : magnitude (n * 2 ^ d) u = magnitude n (u + d) := by
  rw [magnitude, magnitude, pow2_add, pow2_eq_zpow d, zpow_natCast]
  push_cast
  ring

/-- A magnitude in units of a scale that is not larger. -/
theorem magnitude_rescale (h : u ≤ k) : magnitude (m * 2 ^ (k - u).toNat) u = magnitude m k := by
  rw [magnitude_mul_two_pow, Int.toNat_of_nonneg (Int.sub_nonneg_of_le h), add_sub_cancel]

/-- Of two forms of one magnitude, that of the smaller scale has the mantissa of the other, shifted. -/
theorem eq_mul_two_pow_of_magnitude_eq (h : u ≤ k) (heq : magnitude n u = magnitude m k) :
    n = m * 2 ^ (k - u).toNat :=
  magnitude_left_inj.1 (heq.trans (magnitude_rescale h).symm)

theorem magnitude_oddPart (m : Nat) (k : Int) : magnitude (oddPart m) (k + twos m) = magnitude m k := by
  rw [← magnitude_mul_two_pow, oddPart_mul_twos]

theorem oddPart_ne_zero (hm : m ≠ 0) : oddPart m ≠ 0 := by
  have hodd := oddPart_odd hm
  omega

theorem bitlen_oddPart_add_twos (hm : m ≠ 0) : bitlen (oddPart m) + twos m = bitlen m := by
  rw [← bitlen_mul_two_pow (oddPart_ne_zero hm), oddPart_mul_twos]

/-- Of two odd forms of one magnitude neither has the larger scale. -/
theorem scale_le_of_odd (hn : n % 2 = 1) (heq : magnitude n u = magnitude m k) : k ≤ u := by
  by_contra hlt
  have hshift := eq_mul_two_pow_of_magnitude_eq (not_le.1 hlt).le heq
  obtain ⟨d, hd⟩ : ∃ d, (k - u).toNat = d + 1 := ⟨(k - u).toNat - 1, by omega⟩
  rw [hd, pow_succ, ← Nat.mul_assoc] at hshift
  omega

/-- The odd part and its exponent are determined by the magnitude (41_render.md R112). -/
theorem oddPart_eq_of_magnitude_eq (hm : m ≠ 0) (hn : n ≠ 0) (heq : magnitude m k = magnitude n u) :
    oddPart m = oddPart n ∧ k + twos m = u + twos n := by
  have hodd : magnitude (oddPart m) (k + twos m) = magnitude (oddPart n) (u + twos n) := by
    rw [magnitude_oddPart, magnitude_oddPart, heq]
  have hexp := le_antisymm (scale_le_of_odd (oddPart_odd hn) hodd.symm) (scale_le_of_odd (oddPart_odd hm) hodd)
  rw [hexp] at hodd
  exact ⟨magnitude_left_inj.1 hodd, hexp⟩

end Sys2Proof.Machine
end

section
/-! Binary64 values in units of the last place: what a finite word holds, which values are representable, and the number
of units that the exact rendering and the recommended rounding give (41_render.md R111, R112). -/

namespace Sys2Proof.Machine

variable {m n n' : Nat} {k u u' : Int}

/-! ### Representable values -/

theorem representable64_zero (k : Int) : representable64 0 k = true := rfl

/-- The condition of 41_render.md R112 on a mantissa that is not 0. -/
theorem representable64_iff (hm : m ≠ 0) :
    representable64 m k = true ↔
      bitlen (oddPart m) ≤ 53 ∧ -1074 ≤ k + twos m ∧ k + twos m + bitlen (oddPart m) ≤ 1024 := by
  simp [representable64, hm, and_assoc]

/-- Representability is a property of the magnitude. -/
theorem representable64_of_magnitude_eq (h : representable64 n u = true) (heq : magnitude n u = magnitude m k) :
    representable64 m k = true := by
  by_cases hm : m = 0
  · rw [hm, representable64_zero]
  · have hn : n ≠ 0 := by rwa [Ne, ← magnitude_eq_zero_iff (k := u), heq, magnitude_eq_zero_iff]
    obtain ⟨hodd, hexp⟩ := oddPart_eq_of_magnitude_eq hn hm heq
    rw [representable64_iff hn, hodd, hexp] at h
    exact (representable64_iff hm).2 h

/-- A mantissa of 53 bits and a scale in binary64's range make a representable value. -/
theorem representable64_of_bounds (hn : n < 2 ^ 53) (hlo : -1074 ≤ u) (hhi : u ≤ 971) :
    representable64 n u = true := by
  by_cases h0 : n = 0
  · rw [h0, representable64_zero]
  · have hlen := bitlen_le_iff.2 hn
    have hsplit := bitlen_oddPart_add_twos h0
    rw [representable64_iff h0]
    omega

/-! ### Units of the last place -/

/-- `n` units of `2^u` are the mantissa and the scale of a finite binary64 word: a normal word has the implicit bit, a
zero or subnormal word the smallest scale. -/
structure Units64 (n : Nat) (u : Int) : Prop where
  mantissa_lt : n < 2 ^ 53
  le_scale : -1074 ≤ u
  scale_le : u ≤ 971
  implicitBit : 2 ^ 52 ≤ n ∨ u = -1074

/-- The units of a finite word represent a value. -/
theorem Units64.representable (h : Units64 n u) : representable64 n u = true :=
  representable64_of_bounds h.mantissa_lt h.le_scale h.scale_le

/-- The words of units are below that of infinity. -/
theorem Units64.word_lt (h : Units64 n u) : unitsWord64 n u < Format.binary64.pack 0 Format.binary64.allOnes 0 := by
  obtain ⟨hn, hlo, hhi, -⟩ := h
  have hinf : Format.binary64.pack 0 Format.binary64.allOnes 0 = 2047 * 2 ^ 52 := by decide
  rw [unitsWord64, hinf]
  omega

/-- A word determines its units. -/
theorem Units64.eq_of_word_eq (h : Units64 n u) (h' : Units64 n' u') (heq : unitsWord64 n u = unitsWord64 n' u') :
    n = n' ∧ u = u' := by
  obtain ⟨hn, hlo, hhi, hbit⟩ := h
  obtain ⟨hn', hlo', hhi', hbit'⟩ := h'
  rw [unitsWord64, unitsWord64] at heq
  omega

/-- Of two units of one magnitude neither has the larger scale: it would have the implicit bit, and shifted it would
leave the 53 bits. -/
theorem Units64.scale_le_of_magnitude_eq (h : Units64 n u) (h' : Units64 n' u')
    (heq : magnitude n u = magnitude n' u') : u' ≤ u := by
  by_contra hlt
  have hshift := eq_mul_two_pow_of_magnitude_eq (not_le.1 hlt).le heq
  have hlo := h.le_scale
  have hbit : 2 ^ 52 ≤ n' := h'.implicitBit.resolve_right (by omega)
  have htwo : 2 ^ 1 ≤ 2 ^ (u' - u).toNat := Nat.pow_le_pow_right (by decide) (by omega)
  have hbig : 2 ^ 52 * 2 ^ 1 ≤ n' * 2 ^ (u' - u).toNat := Nat.mul_le_mul hbit htwo
  have hn := h.mantissa_lt
  omega

/-- A magnitude determines its units. -/
theorem Units64.eq_of_magnitude_eq (h : Units64 n u) (h' : Units64 n' u') (heq : magnitude n u = magnitude n' u') :
    n = n' ∧ u = u' := by
  obtain rfl : u = u' := le_antisymm (h'.scale_le_of_magnitude_eq h heq.symm) (h.scale_le_of_magnitude_eq h' heq)
  exact ⟨magnitude_left_inj.1 heq, rfl⟩

/-! ### The exact rendering and the rounding -/

/-- The unit of a value is that of its odd part. -/
theorem unitExp64_oddPart (hm : m ≠ 0) (k : Int) : unitExp64 (oddPart m) (k + twos m) = unitExp64 m k := by
  have hsplit := bitlen_oddPart_add_twos hm
  rw [unitExp64, unitExp64]
  omega

/-- The exact rendering of a representable value is the word of its units. -/
theorem exactWord64_of_representable (hm : m ≠ 0) (h : representable64 m k = true) :
    ∃ n, Units64 n (unitExp64 m k) ∧ magnitude n (unitExp64 m k) = magnitude m k ∧
      exactWord64 m k = unitsWord64 n (unitExp64 m k) := by
  obtain ⟨hlen, hlo, hhi⟩ := (representable64_iff hm).1 h
  have hodd := oddPart_ne_zero hm
  have hunit : unitExp64 m k = max (k + twos m + bitlen (oddPart m) - 53) (-1074) := by
    rw [← unitExp64_oddPart hm, unitExp64]
  have hle : unitExp64 m k ≤ k + twos m := by omega
  have hshift := bitlen_mul_two_pow hodd (k + twos m - unitExp64 m k).toNat
  refine ⟨oddPart m * 2 ^ (k + twos m - unitExp64 m k).toNat,
    ⟨bitlen_le_iff.1 ?_, ?_, ?_, ?_⟩, ?_, ?_⟩
  · omega
  · omega
  · omega
  · rw [← lt_bitlen_iff]
    omega
  · rw [magnitude_rescale hle, magnitude_oddPart]
  · rw [exactWord64, if_neg hm, unitExp64_oddPart hm]

/-- A representable value has units, of which its exact rendering is the word. -/
theorem exists_units_of_representable (h : representable64 m k = true) :
    ∃ n u, Units64 n u ∧ magnitude n u = magnitude m k ∧ exactWord64 m k = unitsWord64 n u := by
  by_cases hm : m = 0
  · refine ⟨0, -1074, ⟨by decide, by decide, by decide, .inr rfl⟩, ?_, ?_⟩
    · rw [hm, magnitude_eq_zero_iff.2 rfl, magnitude_eq_zero_iff.2 rfl]
    · rw [hm]
      rfl
  · obtain ⟨n, hunits, hmag, hword⟩ := exactWord64_of_representable hm h
    exact ⟨n, _, hunits, hmag, hword⟩

/-- The exact rendering of units is their word. -/
theorem Units64.exactWord64_eq (h : Units64 n u) : exactWord64 n u = unitsWord64 n u := by
  obtain ⟨n', u', hunits, hmag, hword⟩ := exists_units_of_representable h.representable
  obtain ⟨rfl, rfl⟩ := hunits.eq_of_magnitude_eq h hmag
  exact hword

/-- Rounding has nothing to round away where the division is exact. -/
theorem roundShift_of_eq_mul_two_pow {d : Nat} (h : m = n * 2 ^ d) : roundShift m d = n := by
  subst h
  have hpos := Nat.two_pow_pos d
  rw [roundShift, Nat.mul_mod_left, Nat.mul_div_cancel n hpos, if_pos (.inl (by omega))]

/-- Settles O41: in units of its last place the value is a whole number, so that the rounding shifts it left, or
shifts only zero bits out of it, to the units of the exact rendering, whose word is below infinity. -/
theorem recommendedRoundingIsExactWhereItCan : Obligations.RecommendedRoundingIsExactWhereItCan := by
  intro s m k h
  rw [render64, if_pos h, roundNearestEven64]
  by_cases hm : m = 0
  · rw [exactWord64, if_pos hm, if_pos hm, Nat.min_zero]
  · obtain ⟨n, hunits, hmag, hword⟩ := exactWord64_of_representable hm h
    have hinf := Nat.min_eq_right hunits.word_lt.le
    rw [hword, if_neg hm]
    split
    case isTrue hle =>
      rw [magnitude_left_inj.1 ((magnitude_rescale hle).trans hmag.symm), hinf]
    case isFalse hlt =>
      rw [roundShift_of_eq_mul_two_pow (eq_mul_two_pow_of_magnitude_eq (not_le.1 hlt).le hmag.symm), hinf]

end Sys2Proof.Machine
end

section
/-! Binary64 words: the fields of a rendered word, and the units of a word with a magnitude; then the rendering read by
the decoder, and the decoder's result rendered (41_render.md R111, R112). -/

namespace Sys2Proof.Machine

variable {m n : Nat} {k u : Int} {s : Bit} {p : Params} {fmt : Format} {bits : Nat}

/-! ### Finite results of the pseudocode -/

/-- A finite result comes from legal widths and a word with a magnitude. -/
theorem finite_of_decodePseudocode (h : (decodePseudocode p bits fmt.ew fmt.sw).1 = .finite s m k) :
    p.legal fmt = true ∧ fmt.expField (fmt.word bits) ≠ fmt.allOnes ∧ m = fmt.mantissa (fmt.word bits) ∧
      k = fmt.expUnb (fmt.word bits) - fmt.sw := by
  cases hlegal : p.legal fmt with
  | false =>
    rw [decodePseudocode_of_illegal hlegal] at h
    cases h
  | true =>
    by_cases he : fmt.expField (fmt.word bits) = fmt.allOnes
    · rw [decodePseudocode_of_special hlegal rfl he (Outputs.any p 0)] at h
      dsimp only at h
      split at h <;> cases h
    · rw [decodePseudocode_of_finite hlegal rfl he] at h
      cases h
      exact ⟨rfl, he, rfl, rfl⟩

/-- The mantissa and the scale of a finite result are in their ranges (40_decode.md R89). -/
theorem bounds_of_decodePseudocode (h : (decodePseudocode p bits fmt.ew fmt.sw).1 = .finite s m k) :
    m < 2 ^ (fmt.sw + 1) ∧ 1 - bias fmt - fmt.sw ≤ k ∧ k ≤ max 1 (bias fmt) - fmt.sw := by
  obtain ⟨hlegal, he, rfl, rfl⟩ := finite_of_decodePseudocode h
  obtain ⟨hew, hsw, -, -⟩ := (legal_iff fmt p).1 hlegal
  obtain ⟨hlo, hhi⟩ := expUnb_inRange hew he
  exact ⟨mantissa_lt hsw _, Int.sub_le_sub_right hlo _, Int.sub_le_sub_right hhi _⟩

/-- Settles O39: the ranges of mantissa and scale of the three formats lie in those of a representable value. -/
theorem referenceFormatsAreRepresentable : Obligations.ReferenceFormatsAreRepresentable := by
  intro p bits fmt s m k hfmt h
  obtain ⟨hm, hlo, hhi⟩ := bounds_of_decodePseudocode h
  obtain ⟨hsw, hmin, hmax⟩ :
      fmt.sw ≤ 52 ∧ -1074 ≤ 1 - bias fmt - fmt.sw ∧ max 1 (bias fmt) - fmt.sw ≤ 971 := by
    rcases hfmt with rfl | rfl | rfl <;> decide
  exact representable64_of_bounds (fitsUnsigned_mono hm (Nat.succ_le_succ hsw)) (hmin.trans hlo) (hhi.trans hmax)

/-! ### The fields of a binary64 word -/

/-- A word of sign 0 is its two fields. -/
theorem pack_positive (e f : Nat) : Format.binary64.pack 0 e f = e * 2 ^ 52 + f := by
  simp [Format.pack, Format.binary64]

/-- A magnitude word of fields `e` and `f` gets its sign as those fields do. -/
theorem signed64_toNat (s : Bit) {e f : Nat} (he : e < 2 ^ 11) (hf : f < 2 ^ 52) :
    (signed64 s (Format.binary64.pack 0 e f)).toNat = Format.binary64.pack s e f := by
  have hpack : Format.binary64.pack s 0 (Format.binary64.pack 0 e f) = Format.binary64.pack s e f := by
    simp [Format.pack, Nat.add_assoc]
  rw [signed64, hpack, BitVec.toNat_ofNat]
  exact Nat.mod_eq_of_lt (pack_lt Format.binary64 he hf)

/-- The fields of a signed word are its sign and those of its magnitude word. -/
theorem fields_signed64 (s : Bit) {e f : Nat} (he : e < 2 ^ 11) (hf : f < 2 ^ 52) :
    Format.binary64.sign (signed64 s (Format.binary64.pack 0 e f)).toNat = s ∧
      Format.binary64.expField (signed64 s (Format.binary64.pack 0 e f)).toNat = e ∧
      Format.binary64.sigField (signed64 s (Format.binary64.pack 0 e f)).toNat = f := by
  rw [signed64_toNat s he hf]
  exact ⟨sign_pack .binary64 s he hf, expField_pack .binary64 (by decide) s he hf,
    sigField_pack .binary64 (by decide) s hf⟩

/-- A word of 64 bits is the signed word of its fields. -/
theorem signed64_fields (b : BitVec 64) :
    signed64 (Format.binary64.sign b.toNat)
      (Format.binary64.pack 0 (Format.binary64.expField b.toNat) (Format.binary64.sigField b.toNat)) = b := by
  apply BitVec.eq_of_toNat_eq
  rw [signed64_toNat _ (expField_lt .binary64 (by decide) _) (sigField_lt .binary64 (by decide) _)]
  exact pack_fields .binary64 (by decide) (by decide) b.isLt

/-- Binary64 consults all the bits of a word of 64 bits. -/
theorem word_binary64 (b : BitVec 64) : Format.binary64.word b.toNat = b.toNat := Nat.mod_eq_of_lt b.isLt

/-- The class of a pattern of 64 bits is that of the word it is. -/
theorem classOf_binary64 (b : BitVec 64) : Format.binary64.classOf b.toNat = Format.binary64.wordClass b.toNat :=
  congrArg Format.binary64.wordClass (word_binary64 b)

/-- What the decoder gives for a binary64 word without a magnitude. -/
theorem decode64_of_special {b : BitVec 64} (he : Format.binary64.expField b.toNat = Format.binary64.allOnes) :
    (decodePseudocode .unbounded b.toNat 11 52).1 =
      if Format.binary64.sigField b.toNat = 0 then .inf (Format.binary64.sign b.toNat)
      else .nan (Format.binary64.sign b.toNat) :=
  congrArg Prod.fst <|
    decodePseudocode_of_special (fmt := .binary64) (by decide) (word_binary64 b) he (Outputs.any .unbounded 0)

/-- The mantissa and the scale of a word with a magnitude are units, and their word has its two fields. -/
theorem units64_fields {w : Nat} (he : Format.binary64.expField w ≠ Format.binary64.allOnes) :
    Units64 (Format.binary64.mantissa w) (Format.binary64.expUnb w - 52) ∧
      unitsWord64 (Format.binary64.mantissa w) (Format.binary64.expUnb w - 52) =
        Format.binary64.pack 0 (Format.binary64.expField w) (Format.binary64.sigField w) := by
  have hbias : bias .binary64 = 1023 := by decide
  have hones : Format.binary64.allOnes = 2047 := by decide
  have hlt := expField_lt_allOnes (by decide) he
  have hf : Format.binary64.sigField w < 2 ^ 52 := sigField_lt .binary64 (by decide) w
  rw [unitsWord64, pack_positive]
  by_cases h0 : Format.binary64.expField w = 0
  · have hm : Format.binary64.mantissa w = Format.binary64.sigField w := if_pos h0
    have heu : Format.binary64.expUnb w = -1022 := by
      rw [Format.expUnb, if_pos h0, unbiasedZeroExp, hbias]
      rfl
    rw [hm, heu]
    exact ⟨⟨by omega, by omega, by omega, .inr rfl⟩, by omega⟩
  · have hm : Format.binary64.mantissa w = Format.binary64.sigField w + 2 ^ 52 := if_neg h0
    have heu : Format.binary64.expUnb w = Format.binary64.expField w - 1023 := by
      rw [Format.expUnb, if_neg h0, unbiasedExp, hbias]
    rw [hm, heu]
    exact ⟨⟨by omega, by omega, by omega, .inl (by omega)⟩, by omega⟩

/-- The decoder reads a word with a magnitude as units of which it is the signed word. -/
theorem decode64_of_finite {b : BitVec 64} (he : Format.binary64.expField b.toNat ≠ Format.binary64.allOnes) :
    ∃ n u, Units64 n u ∧
      unitsWord64 n u = Format.binary64.pack 0 (Format.binary64.expField b.toNat) (Format.binary64.sigField b.toNat) ∧
      (decodePseudocode .unbounded b.toNat 11 52).1 = .finite (Format.binary64.sign b.toNat) n u := by
  obtain ⟨hunits, hword⟩ := units64_fields he
  exact ⟨_, _, hunits, hword,
    congrArg Prod.fst (decodePseudocode_of_finite (fmt := .binary64) (by decide) (word_binary64 b) he)⟩

/-- The decoder reads the signed word of units as those units. -/
theorem decode64_of_units (h : Units64 n u) (s : Bit) :
    (decodePseudocode .unbounded (signed64 s (unitsWord64 n u)).toNat 11 52).1 = .finite s n u := by
  have hones : Format.binary64.allOnes = 2047 := by decide
  have hlt := h.word_lt
  have hfields : unitsWord64 n u = Format.binary64.pack 0 (unitsWord64 n u / 2 ^ 52) (unitsWord64 n u % 2 ^ 52) := by
    rw [pack_positive]
    omega
  rw [pack_positive, hones] at hlt
  obtain ⟨hsign, hexp, hsig⟩ :=
    fields_signed64 s (e := unitsWord64 n u / 2 ^ 52) (f := unitsWord64 n u % 2 ^ 52) (by omega) (by omega)
  rw [← hfields] at hsign hexp hsig
  obtain ⟨n', u', hunits, hword, hdec⟩ := decode64_of_finite (b := signed64 s (unitsWord64 n u)) (by omega)
  rw [hexp, hsig, ← hfields] at hword
  obtain ⟨rfl, rfl⟩ := hunits.eq_of_word_eq h hword
  rw [hdec, hsign]

/-- The decoder reads the exact rendering of a representable value as that value. -/
theorem decode64_exactWord64 (h : representable64 m k = true) (s : Bit) :
    ∃ n u, (decodePseudocode .unbounded (signed64 s (exactWord64 m k)).toNat 11 52).1 = .finite s n u ∧
      magnitude n u = magnitude m k := by
  obtain ⟨n, u, hunits, hmag, hword⟩ := exists_units_of_representable h
  rw [hword]
  exact ⟨n, u, decode64_of_units hunits s, hmag⟩

/-! ### The obligations -/

/-- The rendered payload is that of a NaN. -/
theorem renderedPayload_bounds (s : Bit) : renderedPayload s ≠ 0 ∧ renderedPayload s < 2 ^ 52 := by
  rw [renderedPayload]
  split
  case isTrue => decide
  case isFalse h => exact ⟨fun h0 => h (BitVec.eq_of_toNat_eq h0), (Config.nanPayload s).isLt⟩

/-- The fields of a rendered infinity or NaN. -/
theorem fields_rendered_special (s : Bit) {f : Nat} (hf : f < 2 ^ 52) :
    Format.binary64.sign (signed64 s (Format.binary64.pack 0 Format.binary64.allOnes f)).toNat = s ∧
      Format.binary64.expField (signed64 s (Format.binary64.pack 0 Format.binary64.allOnes f)).toNat =
        Format.binary64.allOnes ∧
      Format.binary64.sigField (signed64 s (Format.binary64.pack 0 Format.binary64.allOnes f)).toNat = f :=
  fields_signed64 s (Laws.allOnes_lt _) hf

/-- Settles O37: the exact rendering is read as the value, and the rendered infinity and NaN have the all-ones exponent
and a significand that is 0 or not. -/
theorem renderingMeetsItsConstraints : Obligations.RenderingMeetsItsConstraints := by
  refine ⟨fun s m k h => ?_, fun s => ⟨_, rfl, ?_⟩, fun s => ⟨_, rfl, ?_⟩, fun s m k h => ?_⟩
  · exact ⟨_, by rw [render64, if_pos h], decode64_exactWord64 h s⟩
  · obtain ⟨hsign, hexp, hsig⟩ := fields_rendered_special s (Nat.two_pow_pos 52)
    rw [decode64_of_special hexp, if_pos hsig, hsign]
  · obtain ⟨hpayload, hlt⟩ := renderedPayload_bounds s
    obtain ⟨hsign, hexp, hsig⟩ := fields_rendered_special s hlt
    rw [decode64_of_special hexp, hsig, if_neg hpayload, hsign]
  · rw [render64, h]
    rfl

/-- Settles O38: a representable value has its exact rendering, and the units of a word are representable. -/
theorem representableMeansSomeWordHasIt : Obligations.RepresentableMeansSomeWordHasIt := by
  intro s m k
  constructor
  · intro h
    exact ⟨_, decode64_exactWord64 h s⟩
  · rintro ⟨b, m', k', hdec, hmag⟩
    exact representable64_of_magnitude_eq
      (referenceFormatsAreRepresentable .unbounded b.toNat .binary64 s m' k' (.inr (.inr rfl)) hdec) hmag

/-- Settles O40: a word with a magnitude is the word of the units it is read as, which is their exact rendering; an
infinity is determined by its sign; a rendered NaN keeps its sign and the class by its payload. -/
theorem binary64WordsRenderAsThemselves : Obligations.Binary64WordsRenderAsThemselves := by
  intro b
  have hback := signed64_fields b
  rw [classOf_binary64]
  by_cases he : Format.binary64.expField b.toNat = Format.binary64.allOnes
  · rw [wordClass_of_allOnes he, decode64_of_special he]
    by_cases hf : Format.binary64.sigField b.toNat = 0
    · rw [he, hf] at hback
      rw [if_pos hf, if_pos hf]
      exact ⟨fun _ => congrArg some hback, WordClass.noConfusion⟩
    · obtain ⟨hpayload, hlt⟩ := renderedPayload_bounds (Format.binary64.sign b.toNat)
      obtain ⟨hsign, hexp, hsig⟩ := fields_rendered_special (Format.binary64.sign b.toNat) hlt
      rw [if_neg hf, if_neg hf]
      refine ⟨fun hnan => absurd rfl hnan, fun _ => ⟨_, rfl, ?_, hsign⟩⟩
      rw [classOf_binary64, wordClass_of_allOnes hexp, hsig, if_neg hpayload]
  · obtain ⟨n, u, hunits, hword, hdec⟩ := decode64_of_finite he
    refine ⟨fun _ => ?_, fun hnan => ?_⟩
    · rw [hdec, render64, if_pos hunits.representable, hunits.exactWord64_eq, hword, hback]
    · have hfinite := isFinite_wordClass_iff.2 he
      rw [hnan] at hfinite
      simp [IsFinite] at hfinite

end Sys2Proof.Machine
end

section
/-! Decoding and encoding undo each other (30_encoding.md section 2, 40_decode.md section 3): each well-formed
instruction is that of the fields it is packed from, and the instruction of fields in their ranges is well-formed and
packs them again. -/

namespace Sys2Proof

variable {p : Params} {fmt : Format} {e f : Nat}

/-! ### What well-formedness says -/

theorem wellFormed_iff {i : Instr} : i.wellFormed p = true ↔ p.legal i.format = true ∧ i.fieldsOk = true := by
  rw [Instr.wellFormed, Bool.and_eq_true]

theorem fieldsOk_decodeNan (sign : Bit) :
    (Instr.decodeNan fmt sign f).fieldsOk = true ↔ f ≠ 0 ∧ f < 2 ^ fmt.sw := by
  simp [Instr.fieldsOk]

theorem fieldsOk_decodeSubnormal (sign : Bit) :
    (Instr.decodeSubnormal fmt sign f).fieldsOk = true ↔ f ≠ 0 ∧ f < 2 ^ fmt.sw := by
  simp [Instr.fieldsOk]

theorem fieldsOk_decodeNormal (sign : Bit) :
    (Instr.decodeNormal fmt sign e f).fieldsOk = true ↔ 0 < e ∧ e < fmt.allOnes ∧ f < 2 ^ fmt.sw := by
  simp [Instr.fieldsOk, Format.allOnes, and_assoc]

/-! ### The round trips -/

/-- Fields in their ranges give a well-formed instruction, which encodes to the word they pack. -/
theorem wellFormed_and_encode_instrOfFields (hlegal : p.legal fmt = true) (sign : Bit) (he : e < 2 ^ fmt.ew)
    (hf : f < 2 ^ fmt.sw) :
    (instrOfFields fmt sign e f).wellFormed p = true ∧ (instrOfFields fmt sign e f).encode = fmt.pack sign e f := by
  obtain ⟨hew, -, -, -⟩ := (legal_iff fmt p).1 hlegal
  obtain ⟨c, hc⟩ := exists_classCondition he f
  cases c with
  | zero =>
    obtain ⟨rfl, rfl⟩ := hc
    rw [instrOfFields_zero hew]
    exact ⟨wellFormed_iff.2 ⟨hlegal, rfl⟩, rfl⟩
  | subnormal =>
    obtain ⟨rfl, hf0⟩ := hc
    rw [instrOfFields_subnormal hew sign hf0]
    exact ⟨wellFormed_iff.2 ⟨hlegal, (fieldsOk_decodeSubnormal sign).2 ⟨hf0, hf⟩⟩, rfl⟩
  | normal =>
    obtain ⟨hpos, hlt⟩ := hc
    rw [instrOfFields_normal sign f hpos hlt]
    exact ⟨wellFormed_iff.2 ⟨hlegal, (fieldsOk_decodeNormal sign).2 ⟨hpos, hlt, hf⟩⟩, rfl⟩
  | infinity =>
    obtain ⟨rfl, rfl⟩ := hc
    rw [instrOfFields_infinity]
    exact ⟨wellFormed_iff.2 ⟨hlegal, rfl⟩, rfl⟩
  | nan =>
    obtain ⟨rfl, hf0⟩ := hc
    rw [instrOfFields_nan sign hf0]
    exact ⟨wellFormed_iff.2 ⟨hlegal, (fieldsOk_decodeNan sign).2 ⟨hf0, hf⟩⟩, rfl⟩

/-- A well-formed instruction is that of some fields in their ranges, and its word packs them. -/
theorem exists_fields_of_wellFormed {i : Instr} (hwf : i.wellFormed p = true) :
    ∃ sign e f, e < 2 ^ i.format.ew ∧ f < 2 ^ i.format.sw ∧ i.encode = i.format.pack sign e f ∧
      instrOfFields i.format sign e f = i := by
  obtain ⟨hlegal, hfields⟩ := wellFormed_iff.1 hwf
  obtain ⟨hew, -, -, -⟩ := (legal_iff i.format p).1 hlegal
  cases i with
  | decodeInfinity fmt sign =>
    exact ⟨sign, _, _, Laws.allOnes_lt fmt, Nat.two_pow_pos _, rfl, instrOfFields_infinity sign⟩
  | decodeNan fmt sign f =>
    obtain ⟨hf0, hf⟩ := (fieldsOk_decodeNan sign).1 hfields
    exact ⟨sign, _, _, Laws.allOnes_lt fmt, hf, rfl, instrOfFields_nan sign hf0⟩
  | decodeZero fmt sign =>
    exact ⟨sign, _, _, Nat.two_pow_pos _, Nat.two_pow_pos _, rfl, instrOfFields_zero hew sign⟩
  | decodeSubnormal fmt sign f =>
    obtain ⟨hf0, hf⟩ := (fieldsOk_decodeSubnormal sign).1 hfields
    exact ⟨sign, _, _, Nat.two_pow_pos _, hf, rfl, instrOfFields_subnormal hew sign hf0⟩
  | decodeNormal fmt sign e f =>
    obtain ⟨hpos, hlt, hf⟩ := (fieldsOk_decodeNormal sign).1 hfields
    exact ⟨sign, _, _, hlt.trans (Laws.allOnes_lt fmt), hf, rfl, instrOfFields_normal sign f hpos hlt⟩

/-- Settles O13: the word of a well-formed instruction packs its fields, and a packed word decodes to the instruction
of the packed fields. -/
theorem decodeOfEncodeGivesInstruction : Obligations.DecodeOfEncodeGivesInstruction := by
  intro p i hwf
  obtain ⟨hlegal, -⟩ := wellFormed_iff.1 hwf
  obtain ⟨sign, e, f, he, hf, hencode, hinstr⟩ := exists_fields_of_wellFormed hwf
  rw [hencode, decodeWord_pack hlegal he hf, hinstr]

/-- Settles O14: what decodes is the instruction of the fields of the word, which encodes to the word that the fields
pack, and that is the word itself. -/
theorem encodeOfDecodeGivesWord : Obligations.EncodeOfDecodeGivesWord := by
  intro p bits ew sw i hdec
  cases hlegal : p.legal ⟨ew, sw⟩ with
  | false => cases (decodeWord_of_illegal hlegal).symm.trans hdec
  | true =>
    obtain ⟨hew, hsw, -, -⟩ := (legal_iff _ p).1 hlegal
    cases (decodeWord_of_legal hlegal).symm.trans hdec
    obtain ⟨hwf, hencode⟩ := wellFormed_and_encode_instrOfFields hlegal (Format.sign ⟨ew, sw⟩ _)
      (expField_lt ⟨ew, sw⟩ hew _) (sigField_lt ⟨ew, sw⟩ hsw _)
    exact ⟨hwf, Machine.instrOfFields_format _ _ _ _, hencode.trans (pack_fields _ hew hsw (word_lt _ bits))⟩

/-- Settles O12: each word is evaluated by the decoder. -/
theorem referenceWordsDecode : Obligations.ReferenceWordsDecode := by
  unfold Obligations.ReferenceWordsDecode
  decide

/-! ### The class of a word -/

/-- The exponent and the significand of a word stand below its sign bit. -/
theorem fields_add_sign_bit (hew : 1 ≤ fmt.ew) (hsw : 1 ≤ fmt.sw) (w : Nat) :
    fmt.expField (w + 2 ^ (fmt.ew + fmt.sw)) = fmt.expField w ∧
      fmt.sigField (w + 2 ^ (fmt.ew + fmt.sw)) = fmt.sigField w := by
  have hpow : 2 ^ (fmt.ew + fmt.sw) = 2 ^ fmt.sw * 2 ^ fmt.ew := by rw [Nat.add_comm, Nat.pow_add]
  rw [expField_eq fmt hew, expField_eq fmt hew, sigField_eq fmt hsw, sigField_eq fmt hsw, hpow,
    Nat.add_mul_div_left _ _ (Nat.two_pow_pos _), Nat.add_mod_right, Nat.add_mul_mod_self_left]
  exact ⟨rfl, rfl⟩

/-- Settles O17: rows and cases agree since both are the condition of the class on the fields, which the sign bit does
not change. -/
theorem matchAndMaskSelectTheClass : Obligations.MatchAndMaskSelectTheClass := by
  refine ⟨fun fmt w c hew hsw _ => ⟨rowMatches_iff_classify fmt hew hsw w c, ?_⟩, fun fmt w hew hsw hw => ?_,
    by decide, by decide, by decide⟩
  · rw [classify_eq_iff hew (expField_lt fmt hew w)]
    cases c <;> rfl
  · have hbits : 2 ^ fmt.wordBits = 2 ^ (fmt.ew + fmt.sw) + 2 ^ (fmt.ew + fmt.sw) := by
      rw [Format.wordBits, Nat.add_assoc, Nat.add_comm, Nat.pow_succ, Nat.mul_two]
    have hword : fmt.word w = w := Nat.mod_eq_of_lt (by omega)
    have hword' : fmt.word (w + 2 ^ (fmt.ew + fmt.sw)) = w + 2 ^ (fmt.ew + fmt.sw) := Nat.mod_eq_of_lt (by omega)
    obtain ⟨hexp, hsig⟩ := fields_add_sign_bit hew hsw w
    rw [Format.classOf, Format.classOf, hword, hword', hexp, hsig]

end Sys2Proof
end

section
/-! Moves and steps: what a move leaves on the input ports, what a step does, what it leaves unchanged, and that no run
stops (30_encoding.md R62, 70_reset_and_hazards.md R143, 93_implementation_defined.md section 1). -/

namespace Sys2Proof.Machine

variable {s : State} {i : Instr} {bits ew sw : Nat} {rest : List CallerAction}

/-! ### The caller's move -/

/-- An operation drives the inputs and leaves the list. -/
theorem present_of_decode (h : s.pending = .decode bits ew sw :: rest) :
    s.present = { s with pending := rest, inputs := s.config.drive bits ew sw } := present_of_cons s h

/-- A disturb leaves the inputs unheld, and leaves the list. -/
theorem present_of_disturb (h : s.pending = .disturb :: rest) :
    s.present = { s with pending := rest, inputs := { s.inputs with held := false } } := present_of_cons s h

theorem held_of_decode (h : s.pending = .decode bits ew sw :: rest) : s.Held := by
  rw [State.Held, present_of_decode h]
  rfl

theorem not_held_of_disturb (h : s.pending = .disturb :: rest) : ¬ s.Held := by
  rw [State.Held, present_of_disturb h]
  exact Bool.false_ne_true

/-- On a block that is not tied an operation has the widths that the caller names. -/
theorem nextFormat_of_decode (h : s.pending = .decode bits ew sw :: rest) (htied : s.config.tied = none) :
    s.nextFormat = ⟨ew, sw⟩ := by
  obtain ⟨hew, hsw⟩ := drive_untied s.config bits ew sw htied
  rw [State.nextFormat, present_of_decode h, hew, hsw]

/-- Settles O2: each clause is what `drive` gives for its kind of block. -/
theorem callerDrivesOperationOnPorts : Obligations.CallerDrivesOperationOnPorts := by
  refine ⟨fun s ewMax swMax inW bits ew sw rest hconfig h _ _ => ?_, fun s bits ew sw rest hconfig h => ?_,
    fun s ewMax swMax inW bits ew sw fmt rest hconfig h => ?_, fun s bits ew sw fmt rest hconfig h => ?_,
    fun s h => present_of_nil s h⟩
  all_goals
    rw [present_of_decode h, hconfig]
    rfl

/-! ### One step -/

/-- A held operation runs the instruction that the input ports give. -/
theorem step_of_decodeWord (hheld : s.Held)
    (hdec : decodeWord s.config.params s.present.inputs.bitsIn s.present.inputs.ewIn s.present.inputs.swIn = .ok i) :
    step s = exec i s.present := by
  unfold State.Held at hheld
  simp only [step, State.sample, hheld, if_true, present_config, hdec]

/-- A step with inputs that are not held samples them unsettled. -/
theorem step_of_not_held (h : ¬ s.Held) :
    step s = .next { s.present with outputs := Outputs.unsettled s.config s.draws, draws := s.draws + 1 } := by
  rw [← present_config s, ← present_draws s]
  exact if_neg h

/-- Settles O1: sampling held inputs runs what the decoder reads, and the move has its field lemmas. -/
theorem stepRunsDecodedOperation : Obligations.StepRunsDecodedOperation := fun s =>
  ⟨fun _ hheld hdec => step_of_decodeWord hheld hdec, present_config s, present_outputs s, present_draws s,
    present_pending s⟩

/-- Settles O19: the operation drives the instruction's word and widths on the ports, and the word decodes to it. -/
theorem presentedInstructionRuns : Obligations.PresentedInstructionRuns := by
  intro s i rest htied h hwf hfits
  obtain ⟨hew, hsw⟩ := drive_untied s.config i.encode i.format.ew i.format.sw htied
  have hpresent : s.present = { s with
      pending := rest, inputs := s.config.drive i.encode i.format.ew i.format.sw } := present_of_decode h
  refine ⟨step_of_decodeWord (held_of_decode h) ?_, by rw [hpresent]⟩
  rw [hpresent, drive_bitsIn, hew, hsw, driveUnsigned_of_fits hfits]
  exact decodeOfEncodeGivesInstruction s.config.params i hwf

/-- Settles O4: a signed width that is not positive is driven as 0, which is not legal. -/
theorem nonPositiveWidthsAreRejected : Obligations.NonPositiveWidthsAreRejected := by
  intro s bits ew sw rest htied h hwidth
  have hillegal : s.nextFormat.ew < 1 ∨ s.nextFormat.sw < 1 := by
    rw [nextFormat_of_decode h htied]
    dsimp only
    omega
  obtain ⟨t, hstep, hresult, rfl⟩ :=
    (illegalWidthsRaiseInvalidParameter s (held_of_decode h)).1 (hillegal.imp_right .inl)
  exact ⟨_, hstep, rfl, hresult⟩

/-- Settles O5: the outputs of unsettled inputs are all free, but for `err` in a fixed-format block. -/
theorem unsettledInputsSampleFreeValues : Obligations.UnsettledInputsSampleFreeValues := by
  intro s hheld
  rw [← neverErrs_iff, step_of_not_held hheld]
  refine ⟨fun h => ?_, fun h => ?_⟩
  · rw [unsettled_of_mayErr (Bool.eq_false_of_not_eq_true h)]
  · rw [unsettled_of_neverErrs h]

/-! ### Frames -/

/-- Settles O7: an instruction raises the error or drives its outputs, and each of these writes only outputs and the
counter. -/
theorem classFormsChangeOnlyOutputs : Obligations.ClassFormsChangeOnlyOutputs := by
  intro i s
  rcases exec_cases i s with ⟨-, h⟩ | ⟨-, ⟨c, sign, e, f, h⟩ | ⟨c, sign, e, f, eu, m, h⟩⟩
  · exact ⟨_, h, rfl, rfl, rfl, .inr rfl⟩
  · exact ⟨_, h, rfl, rfl, rfl, .inr rfl⟩
  · exact ⟨_, h, rfl, rfl, rfl, .inl rfl⟩

/-- Sampling completes, and writes only outputs and the counter. -/
theorem sample_frame (s : State) : ∃ t, s.sample = .next t ∧ t.config = s.config ∧ t.inputs = s.inputs ∧
    t.pending = s.pending ∧ (t.draws = s.draws ∨ t.draws = s.draws + 1) := by
  rcases sample_cases s with ⟨-, h⟩ | ⟨-, -, h⟩ | ⟨-, -, i, -, h⟩
  · exact ⟨_, h, rfl, rfl, rfl, .inr rfl⟩
  · exact ⟨_, h, rfl, rfl, rfl, .inr rfl⟩
  · rw [h]
    exact classFormsChangeOnlyOutputs i s

/-- A step completes; the frame is that of the sampling after the move. -/
theorem step_frame (s : State) : ∃ t, step s = .next t ∧ t.config = s.config ∧ t.inputs = s.present.inputs ∧
    t.pending = s.pending.tail ∧ (t.draws = s.draws ∨ t.draws = s.draws + 1) := by
  obtain ⟨t, h, hconfig, hinputs, hpending, hdraws⟩ := sample_frame s.present
  rw [present_draws] at hdraws
  exact ⟨t, h, hconfig.trans (present_config s), hinputs, hpending.trans (present_pending s), hdraws⟩

/-- Settles O6: the step answers one state, and that has the frame. -/
theorem stepChangesOnlyPortsAndMoves : Obligations.StepChangesOnlyPortsAndMoves := by
  intro s t hstep
  obtain ⟨t', hstep', hframe⟩ := step_frame s
  obtain rfl := Host.Outcome.next.inj (hstep'.symm.trans hstep)
  exact hframe

/-- Settles O42: the frame keeps the unheld inputs and the rest of the list, of which an operation drives them again. -/
theorem disturbLeavesInputsUnheld : Obligations.DisturbLeavesInputsUnheld := by
  intro s rest h
  obtain ⟨t, hstep, hconfig, hinputs, hpending, -⟩ := step_frame s
  rw [h] at hpending
  refine ⟨not_held_of_disturb h, present_of_disturb h, t, hstep, hinputs, hpending, fun bits ew sw rest' hrest => ?_⟩
  rw [hrest] at hpending
  exact ⟨held_of_decode hpending, by rw [present_of_decode hpending, hconfig]⟩

/-! ### Runs -/

/-- Settles O25, by induction on the number of steps: each step completes. -/
theorem everyRunCompletes : Obligations.EveryRunCompletes := by
  intro k
  induction k with
  | zero => exact fun s => ⟨s, core_run_zero s⟩
  | succ k ih =>
    intro s
    obtain ⟨t, hstep, -⟩ := step_frame s
    obtain ⟨u, hrun⟩ := ih t
    exact ⟨u, (core_run_succ k hstep).trans hrun⟩

end Sys2Proof.Machine
end

section
/-! The invariant of the ports (10_state.md section 2, 00_scope.md R9): power-up meets it, the caller's move keeps it,
and sampling keeps it. -/

namespace Sys2Proof

variable {c : BlockConfig} {x : Inputs} {fmt : Format} {ew sw : Nat}

theorem fitsUnsigned_zero (w : Option Nat) : fitsUnsigned w 0 = true := by
  cases w with
  | none => rfl
  | some w => exact (fitsUnsigned_some w 0).2 (Nat.two_pow_pos w)

theorem inputs_inRange_iff {p : Params} :
    x.inRange p = true ↔ fitsUnsigned p.inW x.bitsIn = true ∧ p.portsCarry ⟨x.ewIn, x.swIn⟩ = true := by
  rw [Inputs.inRange, Bool.and_eq_true]

/-- In a fixed-format block the tie holds just when the width ports carry the constants. -/
theorem tieHolds_iff (htied : c.tied = some fmt) : c.tieHolds x = true ↔ Format.mk x.ewIn x.swIn = fmt := by
  obtain ⟨ew, sw⟩ := fmt
  simp [BlockConfig.tieHolds, htied]

/-- Widths driven for any operation hold the tie. -/
theorem tieHolds_of_widthsDriven (h : Format.mk x.ewIn x.swIn = c.widthsDriven ew sw) : c.tieHolds x = true := by
  cases htied : c.tied with
  | none => rw [BlockConfig.tieHolds, htied]; rfl
  | some fmt =>
    rw [BlockConfig.widthsDriven, htied, Option.getD_some] at h
    exact (tieHolds_iff htied).2 h

/-- The width ports of a well-formed block carry the widths that it is driven with, where they carry the caller's. -/
theorem portsCarry_widthsDriven (hwf : c.wf = true) (h : c.params.portsCarry ⟨ew, sw⟩ = true) :
    c.params.portsCarry (c.widthsDriven ew sw) = true := by
  obtain ⟨-, htied⟩ := Bool.and_eq_true_iff.1 hwf
  rw [BlockConfig.widthsDriven]
  cases htie : c.tied with
  | none => exact h
  | some fmt =>
    rw [htie] at htied
    exact htied

/-- Where legal tied widths stand on the width ports, the widths there are legal. -/
theorem legal_of_neverErrs (hnever : c.neverErrs = true) (htie : c.tieHolds x = true) :
    c.params.legal ⟨x.ewIn, x.swIn⟩ = true := by
  obtain ⟨fmt, htied, hlegal⟩ := (neverErrs_iff c).1 hnever
  rwa [(tieHolds_iff htied).1 htie]

end Sys2Proof

namespace Sys2Proof.Machine

variable {s t : State}

/-! ### Power-up -/

theorem powerUp_err {c : BlockConfig} (h : c.neverErrs = true) : (State.powerUp c).outputs.err = 0 := by
  rw [State.powerUp, unsettled_of_neverErrs h]

/-- Settles O36: undriven ports hold 0, which every port carries, or the tied constants. -/
theorem powerUpMeetsPortInvariant : Obligations.PowerUpMeetsPortInvariant := by
  have hpowerUp (c : BlockConfig) (hwf : c.wf = true) : (State.powerUp c).Inv := by
    have hzero : c.params.portsCarry ⟨0, 0⟩ = true :=
      Bool.and_eq_true_iff.2 ⟨fitsUnsigned_zero _, fitsUnsigned_zero _⟩
    exact {
      configWf := hwf
      inputsInRange := inputs_inRange_iff.2 ⟨fitsUnsigned_zero _, portsCarry_widthsDriven hwf hzero⟩
      tie := tieHolds_of_widthsDriven (ew := 0) (sw := 0) rfl
      outputsInRange := unsettled_inRange c 0
      errQuiet := powerUp_err
      moves := rfl }
  exact ⟨hpowerUp, hpowerUp _ (by decide)⟩

/-! ### A step -/

/-- The caller's move keeps the invariant: it drives widths that the ports carry, or lets go of the inputs. -/
theorem present_inv (h : s.Inv) : s.present.Inv := by
  obtain ⟨hwf, hinputs, htie, houtputs, herr, hmoves⟩ := h
  cases hpending : s.pending with
  | nil =>
    rw [present_of_nil s hpending]
    exact ⟨hwf, hinputs, htie, houtputs, herr, hmoves⟩
  | cons a rest =>
    rw [hpending, List.all_cons, Bool.and_eq_true] at hmoves
    obtain ⟨hcarries, hrest⟩ := hmoves
    cases a with
    | decode bits ew sw =>
      rw [present_of_decode hpending]
      exact ⟨hwf, inputs_inRange_iff.2 ⟨driveUnsigned_fits _ _, hcarries⟩,
        tieHolds_of_widthsDriven (ew := ew) (sw := sw) rfl, houtputs, herr, hrest⟩
    | disturb =>
      rw [present_of_disturb hpending]
      exact ⟨hwf, hinputs, htie, houtputs, herr, hrest⟩

/-- Each port that an instruction drives, with any values, carries a value of its width. -/
theorem driveSpecial_inRange (s : State) (c : WordClass) (sign : Bit) (e f : Nat) :
    (s.driveSpecial c sign e f).outputs.inRange s.config.params = true := by
  simp [Outputs.inRange, State.driveSpecial, Outputs.any, anyUnsigned, anySigned, driveUnsigned_fits,
    driveSigned_fits]

theorem driveFinite_inRange (s : State) (fmt : Format) (c : WordClass) (sign : Bit) (e f : Nat) (eu : Int) (m : Nat) :
    (s.driveFinite fmt c sign e f eu m).outputs.inRange s.config.params = true := by
  simp [Outputs.inRange, driveUnsigned_fits, driveSigned_fits]

/-- Sampling drives values of the ports' widths, and no error in a fixed-format block with legal tied widths. -/
theorem sample_outputs (htie : s.config.tieHolds s.inputs = true) (hsample : s.sample = .next t) :
    t.outputs.inRange s.config.params = true ∧ (s.config.neverErrs = true → t.outputs.err = 0) := by
  rcases sample_cases s with ⟨-, h⟩ | ⟨-, hillegal, h⟩ | ⟨-, hlegal, i, hdec, h⟩
  · obtain rfl := Host.Outcome.next.inj (h.symm.trans hsample)
    exact ⟨unsettled_inRange _ _, fun hnever => by rw [sampleUnsettled_outputs, unsettled_of_neverErrs hnever]⟩
  · obtain rfl := Host.Outcome.next.inj (h.symm.trans hsample)
    exact ⟨any_inRange _ _, fun hnever => absurd (legal_of_neverErrs hnever htie) (ne_true_of_eq_false hillegal)⟩
  · obtain ⟨-, hformat, -⟩ := encodeOfDecodeGivesWord _ _ _ _ _ hdec
    rw [← hformat] at hlegal
    rw [h] at hsample
    rcases exec_cases i s with ⟨hillegal, -⟩ | ⟨-, ⟨c, sign, e, f, hexec⟩ | ⟨c, sign, e, f, eu, m, hexec⟩⟩
    · exact absurd hlegal (ne_true_of_eq_false hillegal)
    · obtain rfl := Host.Outcome.next.inj (hexec.symm.trans hsample)
      exact ⟨driveSpecial_inRange .., fun _ => driveSpecial_err ..⟩
    · obtain rfl := Host.Outcome.next.inj (hexec.symm.trans hsample)
      exact ⟨driveFinite_inRange .., fun _ => driveFinite_err ..⟩

/-- Sampling keeps the invariant: the frame keeps what the outputs have no part in. -/
theorem sample_inv (h : s.Inv) (hsample : s.sample = .next t) : t.Inv := by
  obtain ⟨t', hsample', hconfig, hinputs, hpending, -⟩ := sample_frame s
  obtain rfl := Host.Outcome.next.inj (hsample'.symm.trans hsample)
  obtain ⟨houtputs, herr⟩ := sample_outputs h.tie hsample
  constructor <;> simp only [hconfig, hinputs, hpending]
  exacts [h.configWf, h.inputsInRange, h.tie, houtputs, herr, h.moves]

/-- Settles O35: the caller's move keeps the invariant, and then sampling does. -/
theorem stepKeepsPortInvariant : Obligations.StepKeepsPortInvariant :=
  fun _ _ h hstep => sample_inv (present_inv h) hstep

/-- Settles O34: the invariant after the move ties the widths, and after the step it gives `err`. -/
theorem fixedFormatNeverErrs : Obligations.FixedFormatNeverErrs := by
  refine ⟨fun c fmt htied hlegal => powerUp_err ((neverErrs_iff c).2 ⟨fmt, htied, hlegal⟩),
    fun s fmt h htied hlegal => ⟨?_, ?_⟩⟩
  · have htie := (present_inv h).tie
    rw [present_config] at htie
    exact (tieHolds_iff htied).1 htie
  · obtain ⟨t, hstep, hconfig, -⟩ := step_frame s
    refine ⟨t, hstep, (stepKeepsPortInvariant s t h hstep).errQuiet ?_⟩
    rw [hconfig]
    exact (neverErrs_iff s.config).2 ⟨fmt, htied, hlegal⟩

end Sys2Proof.Machine
end

section
/-! Operations and the pseudocode (00_scope.md R8, 60_exceptions.md R126): the maxima play no part on legal widths, and
neither does what the caller did before. -/

namespace Sys2Proof.Machine

variable {p q : Params} {fmt : Format} {s : State} {bits ew sw : Nat} {rest : List CallerAction}

/-- Where the widths are legal the pseudocode does not depend on the maxima. -/
theorem decodePseudocode_params (hp : p.legal fmt = true) (hq : q.legal fmt = true) :
    decodePseudocode p bits fmt.ew fmt.sw = decodePseudocode q bits fmt.ew fmt.sw := by
  by_cases he : fmt.expField (fmt.word bits) = fmt.allOnes
  · rw [decodePseudocode_of_special hp rfl he (Outputs.any p 0),
      decodePseudocode_of_special hq rfl he (Outputs.any p 0)]
  · rw [decodePseudocode_of_finite hp rfl he, decodePseudocode_of_finite hq rfl he]

/-- Widths that are legal for a block are legal for the unbounded one. -/
theorem legal_unbounded (h : p.legal fmt = true) : Params.unbounded.legal fmt = true := by
  obtain ⟨hew, hsw, -, -⟩ := (legal_iff fmt p).1 h
  exact (legal_iff fmt _).2 ⟨hew, hsw, rfl, rfl⟩

/-- A port at least as wide as the word cuts off no bit of it. -/
theorem word_mod_two_pow {inW : Nat} (h : fmt.wordBits ≤ inW) : fmt.word (bits % 2 ^ inW) = fmt.word bits :=
  Nat.mod_mod_of_dvd bits (pow_dvd_pow 2 h)

/-- Settles O21: the step computes the pseudocode on the pattern that the port carries; a wide port carries the whole
word of it, a short one no bit above its width. -/
theorem boundedBlockComputesSourceDecoder : Obligations.BoundedBlockComputesSourceDecoder := by
  intro s ewMax swMax inW bits ew sw rest hconfig h hlegal
  have hformat : s.nextFormat = ⟨ew, sw⟩ := nextFormat_of_decode h (by rw [hconfig])
  have hbits : s.present.inputs.bitsIn = bits % 2 ^ inW := by
    rw [present_of_decode h, drive_bitsIn, hconfig]
    rfl
  refine ⟨?_, fun hwide => ?_, fun j hj => ?_⟩
  · obtain ⟨t, hstep, hresult, hports, -⟩ := stepComputesThePseudocode s (held_of_decode h)
    have hsource : decodePseudocode s.config.params (bits % 2 ^ inW) ew sw
        = decodePseudocode .unbounded (bits % 2 ^ inW) ew sw :=
      decodePseudocode_params hlegal (legal_unbounded hlegal)
    rw [hformat, hbits, hsource] at hresult hports
    exact ⟨t, hstep, hresult, hports⟩
  · have hword := word_mod_two_pow (fmt := ⟨ew, sw⟩) (bits := bits) hwide
    exact decodePseudocode_word.symm.trans ((congrArg (decodePseudocode .unbounded · ew sw) hword).trans
      decodePseudocode_word)
  · have hnot : ¬ j < inW := not_lt.2 hj
    rw [State.nextWord, hbits, testBit_word, Nat.testBit_mod_two_pow]
    simp [hnot]

/-! ### History -/

/-- After its first moves a run stands before the next one, on the same block. -/
theorem run_moves (moves : List CallerAction) (s : State) (h : s.pending = moves ++ rest) :
    ∃ t, (∀ k, Sys2Proof.core.run (moves.length + k) s = Sys2Proof.core.run k t) ∧ t.config = s.config ∧
      t.pending = rest := by
  induction moves generalizing s with
  | nil => exact ⟨s, fun k => by rw [List.length_nil, Nat.zero_add], rfl, h⟩
  | cons a moves ih =>
    obtain ⟨s', hstep, hconfig, -, hpending, -⟩ := step_frame s
    rw [h] at hpending
    obtain ⟨t, hrun, hconfig', hrest⟩ := ih s' hpending
    refine ⟨t, fun k => ?_, hconfig'.trans hconfig, hrest⟩
    rw [List.length_cons, Nat.succ_add, core_run_succ _ hstep, hrun]

/-- Two states of one block that are about to make the same operation get the same defined outputs and result. -/
theorem same_outputs_of_same_operation {s' : State} {rest' : List CallerAction} (hconfig : s.config = s'.config)
    (h : s.pending = .decode bits ew sw :: rest) (h' : s'.pending = .decode bits ew sw :: rest') :
    ∃ t t', step s = .next t ∧ step s' = .next t' ∧ definedPorts t.outputs = definedPorts t'.outputs ∧
      t.result = t'.result := by
  have hinputs : s.present.inputs = s'.present.inputs := by
    rw [present_of_decode h, present_of_decode h', hconfig]
  have hformat : s.nextFormat = s'.nextFormat := by rw [State.nextFormat, State.nextFormat, hinputs]
  have hword : s.nextWord = s'.nextWord := by rw [State.nextWord, State.nextWord, hformat, hinputs]
  exact definedOutputsDependOnOperationAlone s s' (congrArg BlockConfig.params hconfig) (held_of_decode h)
    (held_of_decode h') hformat hword

/-- Settles O23: the run comes to a state of the same block that is about to make the operation, as power-up is. -/
theorem historyLeavesNoTrace : Obligations.HistoryLeavesNoTrace := by
  intro s moves bits ew sw h
  obtain ⟨s', hrun, hconfig, hpending⟩ := run_moves moves s h
  obtain ⟨t, u, hstep, hstep', hports, hresult⟩ :=
    same_outputs_of_same_operation (s' := { State.powerUp s.config with pending := [.decode bits ew sw] })
      hconfig hpending rfl
  exact ⟨t, u, (hrun 1).trans ((core_run_succ 0 hstep).trans (core_run_zero t)), hstep', hports, hresult⟩

end Sys2Proof.Machine
end

section
/-! The largest finite value, and the normal words whose scale is not negative (40_decode.md R85). -/

namespace Sys2Proof.Machine

variable {fmt : Format} {w : Nat}

/-- With an exponent of 2 bits or more the bias is positive. -/
theorem bias_pos (hew : 2 ≤ fmt.ew) : 1 ≤ bias fmt := by
  have hpow : (2 : Int) ^ 1 ≤ 2 ^ (fmt.ew - 1) := pow_le_pow_right₀ (by norm_num) (Nat.le_sub_one_of_lt hew)
  rw [bias]
  omega

/-- The largest exponent field below all ones, in a format of 2 exponent bits or more, is a normal one and twice the
bias. -/
theorem largest_expField (hew : 2 ≤ fmt.ew) (he : fmt.expField w = 2 ^ fmt.ew - 2) :
    fmt.expField w ≠ fmt.allOnes ∧ fmt.expField w ≠ 0 ∧ (fmt.expField w : Int) = 2 * bias fmt := by
  have hones := allOnes_eq (fmt := fmt) (by omega)
  have hbias := bias_pos hew
  have hsucc : fmt.expField w + 1 = fmt.allOnes := by
    rw [he]
    unfold Format.allOnes at hones ⊢
    omega
  omega

/-- The largest exponent field below all ones gives the bias when it is unbiased, and the largest significand gives the
largest mantissa. -/
theorem mantissa_and_expUnb_of_largest (hew : 2 ≤ fmt.ew) (he : fmt.expField w = 2 ^ fmt.ew - 2)
    (hf : fmt.sigField w = 2 ^ fmt.sw - 1) :
    fmt.mantissa w = 2 ^ (fmt.sw + 1) - 1 ∧ fmt.expUnb w = bias fmt := by
  obtain ⟨-, h0, hexp⟩ := largest_expField hew he
  have hpos := Nat.two_pow_pos fmt.sw
  rw [Format.mantissa, Format.expUnb, if_neg h0, if_neg h0, restoredMantissa, unbiasedExp, pow_succ]
  omega

/-- Settles O33: the word named drives the bias as its exponent, no mantissa and no exponent of a finite result is
larger, and the scale of a normal word is `e - B - sw`. -/
theorem largestFiniteValue : Obligations.LargestFiniteValue := by
  intro s hready
  obtain ⟨hew, hsw, -, -⟩ := (legal_iff _ _).1 hready.2
  rcases step_cases_of_ready hready with ⟨hne, hstep⟩ | ⟨hones, hstep⟩
  · refine ⟨_, hstep, fun htwo he hf => ?_, fun htwo sign m k hresult => ?_, fun hcls => ?_⟩
    · obtain ⟨hm, heu⟩ := mantissa_and_expUnb_of_largest htwo he hf
      rw [← hm, ← heu]
      exact result_finiteOutputs hne
    · obtain ⟨-, rfl, rfl⟩ := finite_result_of_ready hready hstep hresult
      obtain ⟨-, hhi⟩ := expUnb_inRange hew hne
      rw [max_eq_right (bias_pos htwo)] at hhi
      exact magnitude_le_magnitude (Nat.le_sub_one_of_lt (mantissa_lt hsw _)) (Int.sub_le_sub_right hhi _)
    · obtain ⟨hpos, -⟩ := classCondition_of_code hew (c := .normal) hcls
      have heu : s.nextFormat.expUnb s.nextWord = s.nextFormat.expField s.nextWord - bias s.nextFormat :=
        if_neg hpos.ne'
      change 0 ≤ s.nextFormat.expUnb s.nextWord - s.nextFormat.sw ↔ _
      omega
  · refine ⟨_, hstep, fun htwo he _ => ?_, fun _ sign m k hresult => ?_, fun hcls => ?_⟩
    · exact absurd hones (largest_expField htwo he).1
    · have hspecial := Option.some.inj (hresult.symm.trans (result_specialOutputs hones _))
      split at hspecial
      · cases hspecial
      · cases hspecial
    · obtain ⟨-, hlt⟩ := classCondition_of_code hew (c := .normal) hcls
      exact absurd hones hlt.ne

end Sys2Proof.Machine
end
